-- ==== Sys2Proof/Word.lean ====
section
/-! DEFINITION. The value types of the block: a byte, a 16-bit word, the four octets of an IPv4 address. -/

namespace Sys2Proof

/-- A byte, 8 bits unsigned (00_scope.md R6). -/
abbrev Byte := BitVec 8

/-- A 16-bit unsigned value: a word of CK, a 16-bit header field, `RESULT` (R6, R7). -/
abbrev Word := BitVec 16

/-- An IPv4 address: "not treated as a 32-bit number: it is a sequence of four octets" (20_memory.md R34). -/
structure Ipv4Addr where
  o0 : Byte
  o1 : Byte
  o2 : Byte
  o3 : Byte
deriving DecidableEq, Repr

/-- The octets in the order they go on the wire (R34). -/
def Ipv4Addr.octets (a : Ipv4Addr) : List Byte := [a.o0, a.o1, a.o2, a.o3]

end Sys2Proof
end

