-- ==== Sys2Proof/Machine/Bytes.lean ====
section
/-! DEFINITION. Byte order and bit fields, decided once: big-endian (20_memory.md R33), explicit shifts and masks
(70_reset_and_hazards.md R149). -/

namespace Sys2Proof

/-- `word(hi, lo)` = `(hi << 8) | lo` with both bytes zero-extended (00_scope.md R7, R149). -/
def word (hi lo : Byte) : Word := (hi.setWidth 16 <<< 8) ||| lo.setWidth 16

/-- `v[15:8]` (R33). -/
def hiByte (v : Word) : Byte := (v >>> 8).setWidth 8

/-- `v[7:0]` (R33). -/
def loByte (v : Word) : Byte := v.setWidth 8

/-- `be16(v)` (R7). -/
def be16 (v : Word) : List Byte := [hiByte v, loByte v]

/-- The flags/fragmentOffset word `(flags << 13) | fragmentOffset` (30_encoding.md R53). -/
def flagsFragment (flags : BitVec 3) (frag : BitVec 13) : Word := (flags.setWidth 16 <<< 13) ||| frag.setWidth 16

/-- Bits 15:13 of the flags/fragmentOffset word (R53). -/
def flagsOf (v : Word) : BitVec 3 := (v >>> 13).setWidth 3

/-- Bits 12:0 of the flags/fragmentOffset word (R53). -/
def fragmentOf (v : Word) : BitVec 13 := v.setWidth 13

/-- The 4-byte big-endian form of payloadLength in a record (log 3). -/
def be32 (n : Nat) : List Byte :=
  [BitVec.ofNat 8 (n / 2 ^ 24), BitVec.ofNat 8 (n / 2 ^ 16), BitVec.ofNat 8 (n / 2 ^ 8), BitVec.ofNat 8 n]

/-- The value of four big-endian bytes (log 3). -/
def nat32 (a b c d : Byte) : Nat := ((a.toNat * 256 + b.toNat) * 256 + c.toNat) * 256 + d.toNat

end Sys2Proof
end

