-- ==== Sys2Proof/Config.lean ====
section
/-! DEFINITION. The configuration constants of 00_scope.md R5 and 10_state.md R17, each under its own name, and the two
free values (`fill`, `readDraw`), which have no body. -/

namespace Sys2Proof.Config

/-- `VERSION`, the only version BUILD accepts. -/
def version : Nat := 4
/-- `IHL_MIN`. -/
def ihlMin : Nat := 5
/-- `IHL_MAX`. -/
def ihlMax : Nat := 15
/-- `HDR_LEN`, the number of header bytes BUILD emits, always. -/
abbrev hdrLen : Nat := 20
/-- `TOTAL_MAX`. -/
def totalMax : Nat := 65535
/-- `W_PLEN`, the width of payloadLength in a record: the reference value (DESIGN CHOICE, log 3). -/
def wPlen : Nat := 32

/-- `DEF_IHL`. -/
def defIhl : Byte := 5
/-- `DEF_TOS`. -/
def defTos : Byte := 0
/-- `DEF_ID`. -/
def defId : Word := 0
/-- `DEF_FLAGS`. -/
def defFlags : BitVec 3 := 0
/-- `DEF_FRAG`. -/
def defFrag : BitVec 13 := 0
/-- `DEF_TTL`. -/
def defTtl : Byte := 50
/-- `DEF_PROTO`, the TCP protocol number. -/
def defProto : Byte := 6
/-- `DEF_SRC`, 127.0.0.1. -/
def defSrc : Ipv4Addr := ⟨0x7F, 0x00, 0x00, 0x01⟩

/-- `GEN_COUNT`, packets of the reference sequence. -/
def genCount : Nat := 12
/-- `GEN_START`, payloadLength of the first packet. -/
def genStart : Nat := 2
/-- `GEN_STEP`, growth of payloadLength per packet. -/
def genStep : Nat := 2

/-- `FILL` (packet index, byte index): OPEN, a free value (R5, R119; 93_implementation_defined.md U1; log 12). -/
opaque fill : Nat → Nat → Byte

/-- The bytes the channel's n-th `read()` returns: a free value (R115; 93_implementation_defined.md U5; log 18). -/
opaque readDraw : Nat → List Byte

end Sys2Proof.Config
end

