-- ==== Sys2Proof/Syntax.lean ====
section
/-! DEFINITION. The operations: the two of the block (00_scope.md R4) and the three pseudo-operations of the host
(30_encoding.md R66), one constructor of `Instr` per row of spec/opcode_table.json. -/

namespace Sys2Proof

/-- The 1-bit operation select of a request (30_encoding.md R60). -/
inductive Op where
  | csum
  | build
deriving DecidableEq, Repr

/-- The eleven operands of a BUILD request with their request widths (10_state.md R10, 30_encoding.md R59).
payloadLength is the length of `payload`. -/
structure Fields where
  version           : BitVec 8
  headerLengthWords : BitVec 8
  typeOfService     : BitVec 8
  identification    : BitVec 16
  flags             : BitVec 3
  fragmentOffset    : BitVec 13
  timeToLive        : BitVec 8
  protocol          : BitVec 8
  source            : Ipv4Addr
  destination       : Ipv4Addr
  payload           : List Byte
deriving DecidableEq, Repr

/-- `F.payloadLength` = `len(F.payload)` (R10). -/
def Fields.payloadLength (f : Fields) : Nat := f.payload.length

/-- The operands a BUILD.DEF may override; `none` takes the default (40_header_builder.md R86). -/
structure Overrides where
  version           : Option (BitVec 8)  := none
  headerLengthWords : Option (BitVec 8)  := none
  typeOfService     : Option (BitVec 8)  := none
  identification    : Option (BitVec 16) := none
  flags             : Option (BitVec 3)  := none
  fragmentOffset    : Option (BitVec 13) := none
  timeToLive        : Option (BitVec 8)  := none
  protocol          : Option (BitVec 8)  := none
  source            : Option Ipv4Addr    := none
deriving DecidableEq, Repr

/-- What the block itself is handed: one of its two operations with its operands (R59). -/
inductive Request where
  | csum  (input : List Byte)
  | build (f : Fields)
deriving DecidableEq, Repr

/-- The operation select of a request (R60). -/
def Request.op : Request → Op
  | .csum _  => .csum
  | .build _ => .build

/-- The operations a host writes (R66): one constructor per row of the opcode table. -/
inductive Instr where
  | csum     (input : List Byte)
  | build    (f : Fields)
  | buildDef (o : Overrides) (destination : Ipv4Addr) (payload : List Byte)
  | verify   (input : List Byte)
  | genseq
deriving DecidableEq, Repr

/-- The operation code of a row: a pseudo-operation carries "the code of the operation it expands to" (R60). -/
def Instr.op : Instr → Op
  | .csum _         => .csum
  | .build _        => .build
  | .buildDef _ _ _ => .build
  | .verify _       => .csum
  | .genseq         => .build

end Sys2Proof
end

