-- ==== Sys2Proof/WellFormed.lean ====
section
/-! DEFINITION. When an instruction can be presented as a record. Every operand but payloadLength is exactly as wide as its
type (10_state.md R10); CSUM and VERIFY take any byte sequence (30_encoding.md R62). -/

namespace Sys2Proof

/-- payloadLength travels on `W_PLEN` bits (R10, R59; log 3). -/
def payloadFits (payload : List Byte) : Bool := payload.length < 2 ^ Config.wPlen

/-- The well-formed instructions. -/
def Instr.wf : Instr → Bool
  | .csum _               => true
  | .build f              => payloadFits f.payload
  | .buildDef _ _ payload => payloadFits payload
  | .verify _             => true
  | .genseq               => true

end Sys2Proof
end

