-- ==== Sys2Proof/Decode.lean ====
section
/-! DEFINITION. The record of a request as bytes. 30_encoding.md R59 fixes what a record holds and in which order, and leaves
its packing open; the layout below is the model's (DESIGN CHOICE, logs 1, 2, 3):
byte 0 holds the operation select in bit 0 (R60) and in bits 7..1 the form in which the host wrote it (0: the operation
itself; 1: VERIFY or BUILD.DEF; 2: GENSEQ); then the operands in the order of R59, big-endian. -/

namespace Sys2Proof

/-- Why bytes are no record. -/
inductive DecodeError where
  /-- No byte at all. -/
  | empty
  /-- Byte 0 names no operation of the table. -/
  | unknownForm (op : Op) (form : Nat)
  /-- The operands end early (70_reset_and_hazards.md R142: the host owes a complete set). -/
  | truncated
  /-- Bytes stand after the last operand. -/
  | trailingBytes
  /-- payloadLength is not the number of payload bytes (10_state.md R10). -/
  | lengthMismatch
  /-- A presence mark of a BUILD.DEF operand is neither 0 nor 1. -/
  | badPresenceMark (b : Byte)
  /-- An overriding flags or fragmentOffset does not fit its width. -/
  | valueTooWide
deriving DecidableEq, Repr

/-- A reader takes bytes off the front and gives a value with the bytes left. -/
abbrev Reader (α : Type) := List Byte → Except DecodeError (α × List Byte)

/-- One byte. -/
def readByte : Reader Byte
  | b :: r => .ok (b, r)
  | []     => .error .truncated

/-- Two bytes, big-endian (20_memory.md R33). -/
def readWord : Reader Word
  | h :: l :: r => .ok (word h l, r)
  | _           => .error .truncated

/-- Four octets, octet 0 first (R59). -/
def readAddr : Reader Ipv4Addr
  | a :: b :: c :: d :: r => .ok (⟨a, b, c, d⟩, r)
  | _                     => .error .truncated

/-- A 3-bit value alone in a byte. -/
def readFlags : Reader (BitVec 3)
  | b :: r => if b.toNat < 8 then .ok (b.setWidth 3, r) else .error .valueTooWide
  | []     => .error .truncated

/-- A 13-bit value alone in two bytes. -/
def readFragment : Reader (BitVec 13)
  | h :: l :: r => if (word h l).toNat < 8192 then .ok ((word h l).setWidth 13, r) else .error .valueTooWide
  | _           => .error .truncated

/-- An operand that may be absent: mark 0, or mark 1 and the operand. -/
def readOption {α : Type} (rd : Reader α) : Reader (Option α)
  | b :: r =>
    if b = 0 then .ok (none, r)
    else if b = 1 then
      match rd r with
      | .ok (v, r') => .ok (some v, r')
      | .error e    => .error e
    else .error (.badPresenceMark b)
  | [] => .error .truncated

/-- payloadLength and the payload, to the end of the record: "followed by the `payloadLength` bytes of the payload" (R59). -/
def readPayload : List Byte → Except DecodeError (List Byte)
  | a :: b :: c :: d :: r => if nat32 a b c d = r.length then .ok r else .error .lengthMismatch
  | _                     => .error .truncated

/-- The eleven operands of BUILD in the order of R59. -/
def decodeBuild (r : List Byte) : Except DecodeError Instr := do
  let (version, r) ← readByte r
  let (ihl, r) ← readByte r
  let (tos, r) ← readByte r
  let (ident, r) ← readWord r
  let (ff, r) ← readWord r
  let (ttl, r) ← readByte r
  let (proto, r) ← readByte r
  let (src, r) ← readAddr r
  let (dst, r) ← readAddr r
  let payload ← readPayload r
  return .build ⟨version, ihl, tos, ident, flagsOf ff, fragmentOf ff, ttl, proto, src, dst, payload⟩

/-- The operands of BUILD.DEF: nine that may be absent, the destination and the payload (40_header_builder.md R86). -/
def decodeBuildDef (r : List Byte) : Except DecodeError Instr := do
  let (version, r) ← readOption readByte r
  let (ihl, r) ← readOption readByte r
  let (tos, r) ← readOption readByte r
  let (ident, r) ← readOption readWord r
  let (flags, r) ← readOption readFlags r
  let (frag, r) ← readOption readFragment r
  let (ttl, r) ← readOption readByte r
  let (proto, r) ← readOption readByte r
  let (src, r) ← readOption readAddr r
  let (dst, r) ← readAddr r
  let payload ← readPayload r
  return .buildDef ⟨version, ihl, tos, ident, flags, frag, ttl, proto, src⟩ dst payload

/-- GENSEQ has no operand in its record: its operand is the channel (42_generation_sequence.md R110). -/
def decodeGenseq : List Byte → Except DecodeError Instr
  | [] => .ok .genseq
  | _  => .error .trailingBytes

/-- `op` = 0 selects CSUM, `op` = 1 selects BUILD (R60): every value of the bit selects an operation. -/
def opOfBit (b : Bool) : Op := if b then .build else .csum

/-- The form bits 7..1 of byte 0 (log 2). -/
def formOf (b : Byte) : Nat := b.toNat / 2

/-- The operands of the instruction that an operation select and a form name. -/
def decodeOperands (op : Op) (form : Nat) (r : List Byte) : Except DecodeError Instr :=
  match op, form with
  | .csum,  0 => .ok (.csum r)
  | .csum,  1 => .ok (.verify r)
  | .build, 0 => decodeBuild r
  | .build, 1 => decodeBuildDef r
  | .build, 2 => decodeGenseq r
  | _,      _ => .error (.unknownForm op form)

/-- The instruction a record stands for, or why it is none. -/
def decode : List Byte → Except DecodeError Instr
  | []     => .error .empty
  | b :: r => decodeOperands (opOfBit (b.getLsbD 0)) (formOf b) r

/-! The encoder, from the same layout. -/

/-- The value of the `op` bit (R60). -/
def Op.code : Op → BitVec 1
  | .csum  => 0
  | .build => 1

/-- The form of an instruction (log 2). -/
def Instr.form : Instr → BitVec 7
  | .csum _         => 0
  | .build _        => 0
  | .buildDef _ _ _ => 1
  | .verify _       => 1
  | .genseq         => 2

/-- Byte 0 of the record. -/
def headByte (i : Instr) : Byte := (i.form.setWidth 8 <<< 1) ||| i.op.code.setWidth 8

/-- An operand that may be absent. -/
def encodeOption {α : Type} (enc : α → List Byte) : Option α → List Byte
  | none   => [0]
  | some v => 1 :: enc v

/-- payloadLength and the payload. -/
def encodePayload (payload : List Byte) : List Byte := be32 payload.length ++ payload

/-- The operand bytes of BUILD in the order of R59. -/
def encodeFields (f : Fields) : List Byte :=
  [f.version, f.headerLengthWords, f.typeOfService] ++ be16 f.identification ++
    be16 (flagsFragment f.flags f.fragmentOffset) ++ [f.timeToLive, f.protocol] ++
    f.source.octets ++ f.destination.octets ++ encodePayload f.payload

/-- The operand bytes of BUILD.DEF. -/
def encodeOverrides (o : Overrides) : List Byte :=
  encodeOption (fun b => [b]) o.version ++ encodeOption (fun b => [b]) o.headerLengthWords ++
    encodeOption (fun b => [b]) o.typeOfService ++ encodeOption be16 o.identification ++
    encodeOption (fun v => [BitVec.setWidth 8 v]) o.flags ++
    encodeOption (fun v => be16 (BitVec.setWidth 16 v)) o.fragmentOffset ++
    encodeOption (fun b => [b]) o.timeToLive ++ encodeOption (fun b => [b]) o.protocol ++
    encodeOption Ipv4Addr.octets o.source

/-- The bytes after byte 0. -/
def encodeOperands : Instr → List Byte
  | .csum input               => input
  | .build f                  => encodeFields f
  | .buildDef o dst payload   => encodeOverrides o ++ dst.octets ++ encodePayload payload
  | .verify input             => input
  | .genseq                   => []

/-- The record of an instruction. -/
def encode (i : Instr) : List Byte := headByte i :: encodeOperands i

/-! The host's words. -/

/-- The bytes of a number, least significant first. -/
def bytesOfNat : Nat → Nat → List Byte
  | 0,     _ => []
  | n + 1, w => BitVec.ofNat 8 w :: bytesOfNat n (w / 256)

/-- The length of the longest record whose operands all have a fixed length, that of a BUILD with an empty payload. -/
def fixedRecordLen : Nat := 22

/-- The record whose bits are `w` (bit 0 is `op`, 00_scope.md R6), with zero operand bytes after the `nbits` given. -/
def tableRecord (nbits w : Nat) : List Byte :=
  let given := bytesOfNat ((nbits + 7) / 8) (w % 2 ^ nbits)
  given ++ List.replicate (fixedRecordLen - given.length) 0

/-- The instruction the decoder reads from such a record. -/
def decodeTableWord (nbits w : Nat) : Option Instr :=
  match decode (tableRecord nbits w) with
  | .ok i    => some i
  | .error _ => none

end Sys2Proof
end

