-- ==== Sys2Proof/Machine/State.lean ====
section
/-! DEFINITION. The state of the block, the host and the channel as plain data, its value right after reset, and the reasons
to stop. The list of the state with the rule that names each piece is INVENTORY.md. -/

namespace Sys2Proof.Machine

/-- `HB.step` (10_state.md R13): the step of BUILD about to be done, 1 to 13, named after what 40_header_builder.md R71 to
R83 do. -/
inductive HbStep where
  | validate | byte0 | typeOfService | totalLength | identification | flagsFragment | timeToLive | protocol
  | placeholder | source | destination | checksum | payload
deriving DecidableEq, Repr

/-- `CK.phase` (R13). -/
inductive CkPhase where
  | init | add | tail | fold | done
deriving DecidableEq, Repr

/-- `status` of a BUILD response (R16 a). -/
inductive Status where
  | ok
  | invalidField
deriving DecidableEq, Repr

/-- A response as the host receives it (R18, 30_encoding.md R61). -/
inductive Response where
  /-- CSUM: the 16-bit `RESULT`. -/
  | result (r : Word)
  /-- BUILD: `OK` with all bytes of `OUT`. -/
  | ok (bytes : List Byte)
  /-- BUILD: `InvalidField`, no bytes, no length, no cause (60_exceptions.md R121). -/
  | invalidField
deriving DecidableEq, Repr

/-- The answer of VERIFY (41_checksum.md R104). -/
inductive Verdict where
  | valid
  | invalid
deriving DecidableEq, Repr

/-- How a GENSEQ ended (42_generation_sequence.md R110, R117). -/
inductive SeqEnd where
  | completed
  | channelFailure
deriving DecidableEq, Repr

/-- The channel as the host sees it (R113 to R115; logs 13, 18). Which of its calls fail is data the outside world sets. -/
structure Channel where
  /-- What `peerAddress()` gives; `none`: the call raises ChannelFailure. -/
  peer       : Option Ipv4Addr
  /-- `write` calls made so far. -/
  writes     : Nat
  /-- The numbers of the `write` calls that raise ChannelFailure. -/
  failWrites : List Nat
  /-- The packets written, oldest first. -/
  sent       : List (List Byte)
  /-- `read` calls made so far. -/
  reads      : Nat
  /-- The numbers of the `read` calls that raise ChannelFailure. -/
  failReads  : List Nat
  /-- What `read` gave, newest first. -/
  received   : List (List Byte)
deriving DecidableEq, Repr

/-- Which working register was written in the current operation (10_state.md R21; log 6). -/
structure Written where
  operands    : Bool
  input       : Bool
  acc         : Bool
  totalLength : Bool
  hbuf        : Vector Bool Config.hdrLen
deriving DecidableEq, Repr

/-- No register has been written yet in the current operation. -/
def Written.none : Written := ⟨false, false, false, false, Vector.replicate Config.hdrLen false⟩

/-- The state. -/
structure State where
  /-- R20: from the acceptance of a request to the delivery of its response. -/
  busy           : Bool
  /-- Requests presented and not yet taken, oldest first (R20). -/
  pending        : List (List Byte)
  /-- The operation select of the request in progress (30_encoding.md R60). -/
  op             : Op
  /-- The operand latches `F.<name>` (R10). -/
  operands       : Fields
  /-- `F.totalLength`, computed by step 1 (R10). -/
  totalLength    : Word
  /-- `F.headerChecksum`, computed by CK (R10). -/
  headerChecksum : Word
  /-- `HB.step` (R13). -/
  hbStep         : HbStep
  /-- `HBUF` (R14). -/
  hbuf           : Vector Byte Config.hdrLen
  /-- `In`, the operand of CK (R11). -/
  input          : List Byte
  /-- `CK.phase` (R13). -/
  ckPhase        : CkPhase
  /-- `CK.i` (R13). -/
  ckI            : Nat
  /-- `ACC`, an unbounded natural number (R15; log 16). -/
  acc            : Nat
  /-- Marks of the writes of the current operation (R21; log 6). -/
  written        : Written
  /-- The pending `status` (R16 a, R21); when a BUILD that passes step 1 gets its `OK` is log 33. -/
  status         : Option Status
  /-- The pending `OUT` (R18, R21). -/
  out            : Option (List Byte)
  /-- The pending `RESULT` (R18, R21). -/
  result         : Option Word
  /-- Responses the host has taken, newest first (log 22). -/
  delivered      : List Response
  /-- The last answer of VERIFY (log 22). -/
  verdict        : Option Verdict
  /-- How the last GENSEQ ended (log 22). -/
  seqEnd         : Option SeqEnd
  /-- The channel. -/
  channel        : Channel
deriving DecidableEq, Repr

/-- The working registers whose reads R21 guards. -/
inductive WorkReg where
  | operands | input | acc | totalLength | hbuf | result | out
deriving DecidableEq, Repr

/-- Why the machine stops with a fault. No path from an accepted request reaches one (60_exceptions.md R134). -/
inductive Fault where
  /-- Raised by the register reads of Machine/Ops.lean: "A model must treat a read of `HBUF`, `ACC` or an operand latch before
  its first write in the current operation as a fault of the model" (R21). Safe. -/
  | readBeforeWrite (r : WorkReg)
  /-- Raised by `withByte`: an offset of `In` outside 0 to n - 1, which 20_memory.md R30 says does not exist. Safe. -/
  | noSuchByte
  /-- Raised by `ckTick`: no row of the table of 41_checksum.md R108 leads on from the state (log 27). Safe. -/
  | noTransition
deriving DecidableEq, Repr

/-- Why a step is refused. -/
inductive Refusal where
  /-- Raised by an arm of `exec` whose instruction has no meaning yet: no arm of this model. Safe. -/
  | notModelled (mnemonic : String)
  /-- Raised by `step`: the next record of the host's program is no complete request (R142; log 4). Safe. -/
  | malformedRecord (e : DecodeError)
deriving DecidableEq, Repr

/-- The channel that reset finds (log 14): R140 says nothing of it, since it is no part of the block. -/
def Channel.reset : Channel :=
  { peer := some ⟨0, 0, 0, 0⟩, writes := 0, failWrites := [], sent := [], reads := 0, failReads := [], received := [] }

/-- Operand latches after reset: unspecified by R21, zero here (DESIGN CHOICE, log 5). -/
def resetFields : Fields :=
  { version := 0, headerLengthWords := 0, typeOfService := 0, identification := 0, flags := 0, fragmentOffset := 0,
    timeToLive := 0, protocol := 0, source := ⟨0, 0, 0, 0⟩, destination := ⟨0, 0, 0, 0⟩, payload := [] }

/-- The machine right after reset (R21, 70_reset_and_hazards.md R140): idle, nothing pending; every register the spec leaves
unspecified holds the value log 5 names. -/
def State.reset : State :=
  { busy := false, pending := [], op := .csum, operands := resetFields, totalLength := 0, headerChecksum := 0,
    hbStep := .validate, hbuf := Vector.replicate Config.hdrLen 0, input := [], ckPhase := .init, ckI := 0, acc := 0,
    written := Written.none, status := none, out := none, result := none, delivered := [], verdict := none,
    seqEnd := none, channel := Channel.reset }

end Sys2Proof.Machine
end

