-- ==== Sys2Proof/Machine/Flags.lean ====
section
/-! DEFINITION. What plays the part of flags (10_state.md R16): the carry of CK and its fold, the complement, the zero result,
the status code. -/

namespace Sys2Proof.Machine

/-- The greatest value the fold loop leaves alone (41_checksum.md R94). -/
def accMask : Nat := 0xFFFF

/-- The carry of CK, `ACC >> 16`: "it can be any natural number" (R16 b). -/
def carry (acc : Nat) : Nat := acc >>> 16

/-- The low 16 bits of `ACC`. -/
def lowPart (acc : Nat) : Nat := acc &&& accMask

/-- One fold pass, `(ACC & 0xFFFF) + (ACC >> 16)` (R94). -/
def foldPass (acc : Nat) : Nat := lowPart acc + carry acc

/-- `RESULT` = `~_16(ACC)`, the complement masked to 16 bits (R95): 0xFFFF for a folded sum of 0, 0x0000 for 0xFFFF (R102). -/
def complement16 (acc : Nat) : Word := ~~~(BitVec.ofNat 16 acc)

/-- "a valid header checksums to zero" (R16 c, R104). -/
def verdictOf (r : Word) : Verdict := if r = 0 then .valid else .invalid

/-- The 1-bit code of `status`: 0 = `OK`, 1 = `InvalidField` (30_encoding.md R61). -/
def Status.code : Status → BitVec 1
  | .ok           => 0
  | .invalidField => 1

/-- The number of a step of BUILD, 1 to 13 (R13). -/
def HbStep.number : HbStep → Nat
  | .validate => 1 | .byte0 => 2 | .typeOfService => 3 | .totalLength => 4 | .identification => 5 | .flagsFragment => 6
  | .timeToLive => 7 | .protocol => 8 | .placeholder => 9 | .source => 10 | .destination => 11 | .checksum => 12
  | .payload => 13

/-- "`HB.step` advances by one after each step and never goes back"; it "stops at 13" (R13). -/
def HbStep.next : HbStep → HbStep
  | .validate => .byte0 | .byte0 => .typeOfService | .typeOfService => .totalLength | .totalLength => .identification
  | .identification => .flagsFragment | .flagsFragment => .timeToLive | .timeToLive => .protocol
  | .protocol => .placeholder | .placeholder => .source | .source => .destination | .destination => .checksum
  | .checksum => .payload | .payload => .payload

end Sys2Proof.Machine
end

