-- ==== Sys2Proof/Machine/Operands.lean ====
section
/-! DEFINITION. Operand forms: the checks of step 1, the defaults of BUILD.DEF, the packed values of the header fields, and
the accessors that read a header back (30_encoding.md R56, 00_scope.md R8). -/

namespace Sys2Proof.Machine

/-- totalLength = 20 + payloadLength, a sum of natural numbers that does not wrap (40_header_builder.md R71). -/
def totalLengthOf (f : Fields) : Nat := Config.hdrLen + f.payloadLength

/-- The three checks of step 1 (R71): version, header length, total length. -/
def fieldsValid (f : Fields) : Bool :=
  f.version.toNat == Config.version &&
  (Config.ihlMin ≤ f.headerLengthWords.toNat && f.headerLengthWords.toNat ≤ Config.ihlMax) &&
  totalLengthOf f ≤ Config.totalMax

/-- Byte 0, `(version << 4) | headerLengthWords` (R72). -/
def versionIhlByte (f : Fields) : Byte := (f.version <<< 4) ||| f.headerLengthWords

/-- BUILD.DEF as the BUILD it expands to: every default in its place unless it is overridden (R86). -/
def applyDefaults (o : Overrides) (destination : Ipv4Addr) (payload : List Byte) : Fields :=
  { version           := o.version.getD (BitVec.ofNat 8 Config.version)
    headerLengthWords := o.headerLengthWords.getD Config.defIhl
    typeOfService     := o.typeOfService.getD Config.defTos
    identification    := o.identification.getD Config.defId
    flags             := o.flags.getD Config.defFlags
    fragmentOffset    := o.fragmentOffset.getD Config.defFrag
    timeToLive        := o.timeToLive.getD Config.defTtl
    protocol          := o.protocol.getD Config.defProto
    source            := o.source.getD Config.defSrc
    destination       := destination
    payload           := payload }

/-- The payload of packet `k` of GENSEQ, `[FILL(k, 0), ..., FILL(k, plen-1)]` with plen = GEN_START + k * GEN_STEP
(42_generation_sequence.md R110, R119). -/
def genPayload (k : Nat) : List Byte := (List.range (Config.genStart + k * Config.genStep)).map (Config.fill k)

/-! Accessors over a header `h` (R56). An offset past the end reads 0: they are stated of 20 bytes. -/

/-- Byte `k` of a header. -/
def headerByte (h : List Byte) (k : Nat) : Byte := h.getD k 0

/-- The big-endian word at offset `k`, `MemRead(k, 2)` (00_scope.md R7). -/
def headerWord (h : List Byte) (k : Nat) : Word := word (headerByte h k) (headerByte h (k + 1))

/-- The four octets at offset `k`, `slice(h, k, 4)`. -/
def headerAddr (h : List Byte) (k : Nat) : Ipv4Addr :=
  ⟨headerByte h k, headerByte h (k + 1), headerByte h (k + 2), headerByte h (k + 3)⟩

/-- `h[0] >> 4`. -/
def getVersion (h : List Byte) : Byte := headerByte h 0 >>> 4
/-- `h[0] & 0x0F`. -/
def getIhl (h : List Byte) : Byte := headerByte h 0 &&& 0x0F
/-- `h[1]`. -/
def getTos (h : List Byte) : Byte := headerByte h 1
/-- `(h[2] << 8) | h[3]`. -/
def getTotalLength (h : List Byte) : Word := headerWord h 2
/-- `(h[4] << 8) | h[5]`. -/
def getIdentification (h : List Byte) : Word := headerWord h 4
/-- `h[6] >> 5`. -/
def getFlags (h : List Byte) : BitVec 3 := (headerByte h 6 >>> 5).setWidth 3
/-- `((h[6] & 0x1F) << 8) | h[7]`. -/
def getFragmentOffset (h : List Byte) : BitVec 13 := (word (headerByte h 6 &&& 0x1F) (headerByte h 7)).setWidth 13
/-- `h[8]`. -/
def getTtl (h : List Byte) : Byte := headerByte h 8
/-- `h[9]`. -/
def getProtocol (h : List Byte) : Byte := headerByte h 9
/-- `(h[10] << 8) | h[11]`. -/
def getChecksum (h : List Byte) : Word := headerWord h 10
/-- `slice(h, 12, 4)`. -/
def getSource (h : List Byte) : Ipv4Addr := headerAddr h 12
/-- `slice(h, 16, 4)`. -/
def getDestination (h : List Byte) : Ipv4Addr := headerAddr h 16

/-- Wire bit `w`: bit `7 - (w mod 8)` of byte `w div 8` (00_scope.md R8). -/
def wireBit (h : List Byte) (w : Nat) : Bool := (headerByte h (w / 8)).getLsbD (7 - w % 8)

/-- The unsigned value of the `width` wire bits from `w` on, the first the most significant (R8). -/
def wireField (h : List Byte) : Nat → Nat → Nat
  | _, 0         => 0
  | w, width + 1 => (wireBit h w).toNat * 2 ^ width + wireField h (w + 1) width

end Sys2Proof.Machine
end

