-- ==== Sys2Proof/Machine/Ops.lean ====
section
/-! DEFINITION. The named operations over the registers: guarded reads and marked writes (10_state.md R14, R21), acceptance of
a request, the one error `InvalidField` and the delivery of a response, the host's presenting of a request, and reset. -/

namespace Sys2Proof.Machine

/-- What one step answers. -/
abbrev Out := Host.Outcome State Fault Refusal

/-- Go on from a next state; a stop stays a stop. -/
def andThen (o : Out) (k : State → Out) : Out :=
  match o with
  | .next s    => k s
  | .fault r   => .fault r
  | .refused r => .refused r

/-! Guarded reads: a read before the first write in the current operation is a fault (R21; log 6). -/

/-- Read the operand latches `F.<name>`. -/
def withOperands (s : State) (k : Fields → Out) : Out :=
  if s.written.operands then k s.operands else .fault (.readBeforeWrite .operands)

/-- Read the operand `In` of CK. -/
def withInput (s : State) (k : List Byte → Out) : Out :=
  if s.written.input then k s.input else .fault (.readBeforeWrite .input)

/-- Read byte `i` of `In`; an offset outside 0 to n - 1 does not exist (20_memory.md R30). -/
def withByte (input : List Byte) (i : Nat) (k : Byte → Out) : Out :=
  match input[i]? with
  | some b => k b
  | none   => .fault .noSuchByte

/-- Read `ACC`. -/
def withAcc (s : State) (k : Nat → Out) : Out :=
  if s.written.acc then k s.acc else .fault (.readBeforeWrite .acc)

/-- Read `totalLength`. -/
def withTotalLength (s : State) (k : Word → Out) : Out :=
  if s.written.totalLength then k s.totalLength else .fault (.readBeforeWrite .totalLength)

/-- Read all of `HBUF[0..19]`. -/
def withHbuf (s : State) (k : List Byte → Out) : Out :=
  if s.written.hbuf.toList.all id then k s.hbuf.toList else .fault (.readBeforeWrite .hbuf)

/-- Take the pending `RESULT`. -/
def withResult (s : State) (k : Word → Out) : Out :=
  match s.result with
  | some r => k r
  | none   => .fault (.readBeforeWrite .result)

/-! Writes. -/

/-- `HBUF[k] <- v` (00_scope.md R7). -/
def writeByte (k : Nat) (v : Byte) (s : State) : State :=
  { s with hbuf := s.hbuf.setIfInBounds k v
           written := { s.written with hbuf := s.written.hbuf.setIfInBounds k true } }

/-- `MemWrite(k, 2, v)`: `HBUF[k] <- v[15:8]; HBUF[k+1] <- v[7:0]` (R7, 20_memory.md R33). -/
def writeWord (k : Nat) (v : Word) (s : State) : State :=
  writeByte (k + 1) (loByte v) (writeByte k (hiByte v) s)

/-- The four octets of an address "in order" (R34). -/
def writeAddr (k : Nat) (a : Ipv4Addr) (s : State) : State :=
  writeByte (k + 3) a.o3 (writeByte (k + 2) a.o2 (writeByte (k + 1) a.o1 (writeByte k a.o0 s)))

/-- `ACC <- v`. -/
def writeAcc (v : Nat) (s : State) : State :=
  { s with acc := v, written := { s.written with acc := true } }

/-- `totalLength <- v` (40_header_builder.md R71). -/
def writeTotalLength (v : Word) (s : State) : State :=
  { s with totalLength := v, written := { s.written with totalLength := true } }

/-- Hand CK its operand. -/
def writeInput (input : List Byte) (s : State) : State :=
  { s with input := input, written := { s.written with input := true } }

/-- `HB.step` advances by one (10_state.md R13). -/
def advance (s : State) : State := { s with hbStep := s.hbStep.next }

/-! Acceptance, error, delivery. -/

/-- Acceptance of a request: busy rises, "`HB.step` is set to 1 and `CK.phase` to `INIT`", no working register counts as
written in the new operation but the operand latches the request loads (R20, R21). -/
def accept (r : Request) (s : State) : State :=
  let s := { s with busy := true, op := r.op, hbStep := .validate, ckPhase := .init, written := Written.none,
                    status := none, out := none, result := none }
  match r with
  | .csum input => writeInput input s
  | .build f    => { s with operands := f, written := { s.written with operands := true } }

/-- `raise InvalidField` (60_exceptions.md R120, R128): the status alone; no step after it, no byte, nothing saved.
The next micro-step delivers it (log 10). -/
def raiseInvalidField (s : State) : State := { s with status := some .invalidField }

/-- Delivery of a response: the host takes it, no response stays pending and busy falls (R20, R128 e; log 10). There is no
return operation beside it: "control simply returns to the host" (R128, R129). -/
def deliver (r : Response) (s : State) : State :=
  { s with busy := false, status := none, out := none, result := none, delivered := r :: s.delivered }

/-! The outside world. -/

/-- The host presents a record: "not lost and not merged", "in order of presentation" (R20; 92_eei_decisions.md D11). -/
def present (record : List Byte) (s : State) : State := { s with pending := s.pending ++ [record] }

/-- Reset (70_reset_and_hazards.md R140, R141): the block as `State.reset` has it, an operation in progress discarded with no
response; the host's side is kept (log 15). -/
def applyReset (s : State) : State :=
  { State.reset with pending := s.pending, delivered := s.delivered, verdict := s.verdict, seqEnd := s.seqEnd,
                     channel := s.channel }

end Sys2Proof.Machine
end

