-- ==== Sys2Proof/Machine/Checksum.lean ====
section
/-! DEFINITION. The unit CK: one step of the step relation of 41_checksum.md R108, which is R91 to R95. -/

namespace Sys2Proof.Machine

/-- INIT (R91): `ACC <- 0`, `CK.i <- 0`. -/
def ckInit (s : State) : State := { writeAcc 0 s with ckI := 0, ckPhase := .add }

/-- ADD (R92): one pair from `CK.i`, or on to TAIL or FOLD when fewer than two bytes are left. -/
def ckAdd (s : State) : Out :=
  withInput s fun input =>
    if s.ckI + 1 < input.length then
      withByte input s.ckI fun hi => withByte input (s.ckI + 1) fun lo => withAcc s fun acc =>
        .next { writeAcc (acc + (word hi lo).toNat) s with ckI := s.ckI + 2 }
    else if s.ckI + 1 = input.length then .next { s with ckPhase := .tail }
    else if s.ckI = input.length then .next { s with ckPhase := .fold }
    else .fault .noTransition

/-- TAIL (R93): the last byte is the high byte of a word with low byte 0; `CK.i <- n`. -/
def ckTail (s : State) : Out :=
  withInput s fun input =>
    withByte input (input.length - 1) fun b => withAcc s fun acc =>
      .next { writeAcc (acc + (word b 0).toNat) s with ckI := input.length, ckPhase := .fold }

/-- FOLD (R94, R95): one more pass while `ACC` > 0xFFFF, else the complement. -/
def ckFold (s : State) : Out :=
  withAcc s fun acc =>
    if acc > accMask then .next (writeAcc (foldPass acc) s)
    else .next { s with result := some (complement16 acc), ckPhase := .done }

/-- One step of CK. DONE has no further step (R108). -/
def ckTick (s : State) : Out :=
  match s.ckPhase with
  | .init => .next (ckInit s)
  | .add  => ckAdd s
  | .tail => ckTail s
  | .fold => ckFold s
  | .done => .fault .noTransition

end Sys2Proof.Machine
end

