-- ==== Sys2Proof/Machine/HeaderBuilder.lean ====
section
/-! DEFINITION. The unit HB: one micro-step of BUILD, one definition per numbered step of 40_header_builder.md. -/

namespace Sys2Proof.Machine

/-- Step 1 (R71): the checks, then totalLength, narrowed only after it was checked (70_reset_and_hazards.md R151). -/
def hbValidate (f : Fields) (s : State) : State :=
  if fieldsValid f then advance (writeTotalLength (BitVec.ofNat 16 (totalLengthOf f)) s) else raiseInvalidField s

/-- Step 2 (R72). -/
def hbByte0 (f : Fields) (s : State) : State := advance (writeByte 0 (versionIhlByte f) s)
/-- Step 3 (R73). -/
def hbTypeOfService (f : Fields) (s : State) : State := advance (writeByte 1 f.typeOfService s)
/-- Step 4 (R74). -/
def hbTotalLength (t : Word) (s : State) : State := advance (writeWord 2 t s)
/-- Step 5 (R75). -/
def hbIdentification (f : Fields) (s : State) : State := advance (writeWord 4 f.identification s)
/-- Step 6 (R76). -/
def hbFlagsFragment (f : Fields) (s : State) : State := advance (writeWord 6 (flagsFragment f.flags f.fragmentOffset) s)
/-- Step 7 (R77). -/
def hbTimeToLive (f : Fields) (s : State) : State := advance (writeByte 8 f.timeToLive s)
/-- Step 8 (R78). -/
def hbProtocol (f : Fields) (s : State) : State := advance (writeByte 9 f.protocol s)
/-- Step 9 (R79): the placeholder, not optional. -/
def hbPlaceholder (s : State) : State := advance (writeWord 10 0 s)
/-- Step 10 (R80). -/
def hbSource (f : Fields) (s : State) : State := advance (writeAddr 12 f.source s)
/-- Step 11 (R81). -/
def hbDestination (f : Fields) (s : State) : State := advance (writeAddr 16 f.destination s)

/-- Step 12 (R82): CK runs to completion over `HBUF[0..19]` as steps 2 to 11 left it, handed over when CK starts (log 31);
then the result goes to bytes 10-11. -/
def hbChecksum (s : State) : Out :=
  match s.ckPhase with
  | .init => withHbuf s fun header => ckTick (writeInput header s)
  | .done => withResult s fun c => .next (advance (writeWord 10 c { s with headerChecksum := c }))
  | .add  => ckTick s
  | .tail => ckTick s
  | .fold => ckTick s

/-- Step 13 (R83): `OUT <- HBUF[0..19] ++ F.payload`, status `OK`. That the pending `status` of a BUILD whose checks pass is set
here and not in step 1, which R16 (a) names as the one that sets it, is the model's choice (log 33); that the response is
delivered by the next micro-step is log 10. -/
def hbPayload (f : Fields) (s : State) : Out :=
  withHbuf s fun header => .next { s with out := some (header ++ f.payload), status := some .ok }

/-- One micro-step of HB. -/
def hbTick (s : State) : Out :=
  match s.hbStep with
  | .validate       => withOperands s fun f => .next (hbValidate f s)
  | .byte0          => withOperands s fun f => .next (hbByte0 f s)
  | .typeOfService  => withOperands s fun f => .next (hbTypeOfService f s)
  | .totalLength    => withTotalLength s fun t => .next (hbTotalLength t s)
  | .identification => withOperands s fun f => .next (hbIdentification f s)
  | .flagsFragment  => withOperands s fun f => .next (hbFlagsFragment f s)
  | .timeToLive     => withOperands s fun f => .next (hbTimeToLive f s)
  | .protocol       => withOperands s fun f => .next (hbProtocol f s)
  | .placeholder    => .next (hbPlaceholder s)
  | .source         => withOperands s fun f => .next (hbSource f s)
  | .destination    => withOperands s fun f => .next (hbDestination f s)
  | .checksum       => hbChecksum s
  | .payload        => withOperands s fun f => hbPayload f s

end Sys2Proof.Machine
end

