-- ==== Sys2Proof/Machine/Engine.lean ====
section
/-! DEFINITION. An operation from acceptance to delivery: one micro-step of the block, and its repetition until the response
is delivered. "an accepted operation always runs to its response" (20_memory.md R42). -/

namespace Sys2Proof.Machine

/-- One micro-step of a CSUM: a step of CK, or in DONE the delivery of `RESULT` (41_checksum.md R108). -/
def csumTick (s : State) : Out :=
  match s.ckPhase with
  | .done => withResult s fun r => .next (deliver (.result r) s)
  | .init => ckTick s
  | .add  => ckTick s
  | .tail => ckTick s
  | .fold => ckTick s

/-- One micro-step of a BUILD: a step of HB, or the delivery of the response it left (40_header_builder.md R70, R83). -/
def buildTick (s : State) : Out :=
  match s.status, s.out with
  | some .invalidField, _      => .next (deliver .invalidField s)
  | some .ok, some bytes       => .next (deliver (.ok bytes) s)
  | some .ok, none             => .fault (.readBeforeWrite .out)
  | none, _                    => hbTick s

/-- One micro-step of the block; an idle block stays as it is (60_exceptions.md R133). -/
def tick (s : State) : Out :=
  if s.busy then
    match s.op with
    | .csum  => csumTick s
    | .build => buildTick s
  else .next s

/-- Micro-steps until the block is idle, at most `n`. -/
def run : Nat → State → Out
  | 0,     s => .next s
  | n + 1, s => if s.busy then andThen (tick s) (run n) else .next s

/-- A number of micro-steps no operation in progress exceeds (41_checksum.md R99, R107; 70_reset_and_hazards.md R153). -/
def tickBound (s : State) : Nat := s.input.length + s.acc / 65535 + 64

/-- Run the operation in progress, if any, to its response. -/
def finish (s : State) : Out := run (tickBound s) s

/-- One request and its response. "a request presented while `busy` is true ... is taken when `busy` falls" (10_state.md R20;
log 9). -/
def perform (r : Request) (s : State) : Out := andThen (finish s) fun s => finish (accept r s)

end Sys2Proof.Machine
end

