-- ==== Sys2Proof/Machine/Build.lean ====
section
/-! DEFINITION. The meanings of BUILD and BUILD.DEF (40_header_builder.md). -/

namespace Sys2Proof.Machine

/-- BUILD (R70). -/
def execBuild (f : Fields) (s : State) : Out := perform (.build f) s

/-- BUILD.DEF (R86). -/
def execBuildDef (o : Overrides) (destination : Ipv4Addr) (payload : List Byte) (s : State) : Out :=
  perform (.build (applyDefaults o destination payload)) s

end Sys2Proof.Machine
end

