-- ==== Sys2Proof/Machine/Csum.lean ====
section
/-! DEFINITION. The meanings of CSUM and VERIFY (41_checksum.md). -/

namespace Sys2Proof.Machine

/-- CSUM (R90). -/
def execCsum (input : List Byte) (s : State) : Out := perform (.csum input) s

/-- The comparison the host makes on the response it was just given (R104). -/
def conclude (s : State) : State :=
  match s.delivered with
  | .result r :: _ => { s with verdict := some (verdictOf r) }
  | _              => s

/-- VERIFY (R104): "r <- `CSUM(h)`; the answer is `valid` if r = 0x0000 and `invalid` otherwise". -/
def execVerify (input : List Byte) (s : State) : Out := andThen (perform (.csum input) s) fun s => .next (conclude s)

end Sys2Proof.Machine
end

