-- ==== Sys2Proof/Machine/Channel.lean ====
section
/-! DEFINITION. The calls of the channel (20_memory.md R45, 42_generation_sequence.md R113 to R115, R117). -/

namespace Sys2Proof.Machine

/-- `write(bytes)`: the packet is handed over whole (R114), or the call raises ChannelFailure and it is not (R117; log 19).
The second component says whether the call succeeded. -/
def channelWrite (packet : List Byte) (c : Channel) : Channel × Bool :=
  if c.failWrites.contains c.writes then ({ c with writes := c.writes + 1 }, false)
  else ({ c with writes := c.writes + 1, sent := c.sent ++ [packet] }, true)

/-- `read()`: a draw on which nothing depends (R115; log 18). -/
def channelRead (c : Channel) : Channel × Bool :=
  if c.failReads.contains c.reads then ({ c with reads := c.reads + 1 }, false)
  else ({ c with reads := c.reads + 1, received := Config.readDraw c.reads :: c.received }, true)

/-- The host calls `read()`: it may, and whatever comes "changes no later request" (R115). -/
def hostRead (s : State) : State := { s with channel := (channelRead s.channel).1 }

end Sys2Proof.Machine
end

