-- ==== Sys2Proof/Machine/Genseq.lean ====
section
/-! DEFINITION. The meaning of GENSEQ (42_generation_sequence.md R110 to R119). -/

namespace Sys2Proof.Machine

/-- The field set of packet `k` (R111): BUILD.DEF with the peer's address and a payload of 2 + 2k bytes. -/
def genFields (destination : Ipv4Addr) (k : Nat) : Fields := applyDefaults {} destination (genPayload k)

/-- The sequence ended (R110, R117). -/
def endSequence (e : SeqEnd) (s : State) : State := { s with seqEnd := some e }

/-- `channel.write(OUT)` with the response just taken (R114); a ChannelFailure ends the sequence (R117), else it goes on.
A response without a packet has nothing to write (it cannot occur, R116; log 23). -/
def writePacket (s : State) (continue_ : State → Out) : Out :=
  match s.delivered with
  | .ok packet :: _ =>
    match channelWrite packet s.channel with
    | (c, true)  => continue_ { s with channel := c }
    | (c, false) => .next (endSequence .channelFailure { s with channel := c })
  | _ => continue_ s

/-- `left` more iterations from iteration `k` on (R110, R118). -/
def genLoop (destination : Ipv4Addr) : Nat → Nat → State → Out
  | 0,        _, s => .next (endSequence .completed s)
  | left + 1, k, s =>
    andThen (perform (.build (genFields destination k)) s) fun s => writePacket s (genLoop destination left (k + 1))

/-- GENSEQ (R110): `peerAddress()` once, before the loop (R113), then GEN_COUNT iterations. An operation still in progress is
finished first (R20). -/
def execGenseq (s : State) : Out :=
  andThen (finish s) fun s =>
    match s.channel.peer with
    | some destination => genLoop destination Config.genCount 0 s
    | none             => .next (endSequence .channelFailure s)

end Sys2Proof.Machine
end

