-- ==== Sys2Proof/Machine/Dispatch.lean ====
section
/-! DEFINITION. One arm per operation. -/

namespace Sys2Proof.Machine

def exec (i : Instr) (s : State) : Host.Outcome State Fault Refusal :=
  match i with
  | .csum input => Sys2Proof.Machine.execCsum input s
  | .build f => Sys2Proof.Machine.execBuild f s
  | .buildDef o destination payload => Sys2Proof.Machine.execBuildDef o destination payload s
  | .verify input => Sys2Proof.Machine.execVerify input s
  | .genseq => Sys2Proof.Machine.execGenseq s

end Sys2Proof.Machine
end

