-- ==== Sys2Proof/Machine/Fetch.lean ====
section
/-! DEFINITION. Where the next instruction comes from: the oldest record the host has presented (10_state.md R20,
20_memory.md R44). -/

namespace Sys2Proof.Machine

/-- The oldest pending record, and the state with it taken. -/
def fetch (s : State) : Option (List Byte × State) :=
  match s.pending with
  | []             => none
  | record :: rest => some (record, { s with pending := rest })

/-- Put a record where `fetch` takes the next one. -/
def placeNext (record : List Byte) (s : State) : State := { s with pending := record :: s.pending }

end Sys2Proof.Machine
end

