-- ==== Sys2Proof/Machine/Step.lean ====
section
/-! DEFINITION. One step of the machine: the next request of the host's program, from its record to its response (log 7). -/

namespace Sys2Proof.Machine

/-- With a request waiting, decode it and perform it; with none, finish what is in progress, or stay idle (60_exceptions.md
R125, R133; log 20). A record that is no request is refused at once, on a busy block too, before the operation in progress has
its response: the model's choice (log 4). -/
def step (s : State) : Host.Outcome State Fault Refusal :=
  match fetch s with
  | none             => finish s
  | some (record, s) =>
    match decode record with
    | .ok i    => exec i s
    | .error e => .refused (.malformedRecord e)

/-- The state whose next step fetches the record of `decodeTableWord nbits w` (log 8). -/
def State.withFetchWord (s : State) (nbits w : Nat) : State := placeNext (tableRecord nbits w) s

end Sys2Proof.Machine
end

