-- ==== Sys2Proof/Safety.lean ====
section
/-! DEFINITION. The terms claims are stated in: the closed forms of 41_checksum.md R96 and 40_header_builder.md R84, the
answer a request is owed, and the invariant of the machine. No meaning calls anything of this file. -/

namespace Sys2Proof.Machine

/-! Closed forms. -/

/-- S as R96 writes it: "S = Σ_{j < n div 2} `word(In[2j], In[2j+1])` + (if n is odd, `In[n−1]` << 8, else 0)". -/
def exactWordSum (bytes : List Byte) : Nat :=
  (∑ j ∈ Finset.range (bytes.length / 2), ((bytes.getD (2 * j) 0).toNat * 256 + (bytes.getD (2 * j + 1) 0).toNat)) +
    (if bytes.length % 2 = 1 then (bytes.getD (bytes.length - 1) 0).toNat * 256 else 0)

/-- The same sum, pair by pair. -/
def wordSum : List Byte → Nat
  | hi :: lo :: r => (word hi lo).toNat + wordSum r
  | [b]           => (word b 0).toNat
  | []            => 0

/-- fold*(S): "fold*(0) = 0, and for S > 0, fold*(S) = ((S − 1) mod 65535) + 1" (R96). -/
def foldStar (S : Nat) : Nat := if S = 0 then 0 else (S - 1) % 65535 + 1

/-- `RESULT` = 0xFFFF − fold*(S) (R96). It is 0xFFFF exactly when S = 0, and 0x0000 exactly when S is a positive multiple of
65535 (R102; `checksumOf_ones_iff`, `checksumOf_zero_iff`, `wordSum_zero_iff` of Laws/Answers.lean). -/
def checksumOf (bytes : List Byte) : Word := BitVec.ofNat 16 (0xFFFF - foldStar (wordSum bytes))

/-- The header bytes with `c` in the checksum field: h0 of R84 for `c` = 0. -/
def headerWith (f : Fields) (c : Word) : List Byte :=
  let t : Word := BitVec.ofNat 16 (20 + f.payload.length)
  let g := flagsFragment f.flags f.fragmentOffset
  [0x40 ||| f.headerLengthWords, f.typeOfService, hiByte t, loByte t, hiByte f.identification, loByte f.identification,
    hiByte g, loByte g, f.timeToLive, f.protocol, hiByte c, loByte c] ++ f.source.octets ++ f.destination.octets

/-- The header BUILD answers with: h of R84. -/
def headerOf (f : Fields) : List Byte := headerWith f (checksumOf (headerWith f 0))

/-- The condition of R84 under which BUILD answers `OK`. -/
def Accepts (f : Fields) : Prop :=
  f.version = 4 ∧ 5 ≤ f.headerLengthWords.toNat ∧ f.headerLengthWords.toNat ≤ 15 ∧ f.payload.length ≤ 65515

/-- What R84 and R96 say a request is answered with. -/
def answerTo : Request → Response
  | .csum input => .result (checksumOf input)
  | .build f    => if fieldsValid f then .ok (headerOf f ++ f.payload) else .invalidField

/-- The instruction that is the request alone. -/
def instrOf : Request → Instr
  | .csum input => .csum input
  | .build f    => .build f

/-- The instruction completes, and the one response it delivers is `r`. -/
def Answers (i : Instr) (s : State) (r : Response) : Prop := ∃ t, exec i s = .next t ∧ t.delivered = r :: s.delivered

/-- Packet `k` of a GENSEQ to `destination` (42_generation_sequence.md R111): every field at its default, 2 + 2k payload bytes. -/
def genPacket (destination : Ipv4Addr) (k : Nat) : List Byte :=
  let payload := (List.range (2 + 2 * k)).map (Config.fill k)
  headerOf { version := 4, headerLengthWords := 5, typeOfService := 0, identification := 0, flags := 0, fragmentOffset := 0,
             timeToLive := 50, protocol := 6, source := ⟨127, 0, 0, 1⟩, destination := destination, payload := payload } ++
    payload

/-- CK is at work: in a CSUM, or in step 12 of a BUILD (40_header_builder.md R82), whose status is not pending yet there
(log 33). -/
def CkAtWork (s : State) : Prop :=
  s.busy = true ∧ (s.op = .csum ∨ (s.op = .build ∧ s.status = none ∧ s.hbStep = .checksum))

/-- The request in progress, as the latches hold it. -/
def requestInProgress (s : State) : Request :=
  match s.op with
  | .csum  => .csum s.input
  | .build => .build s.operands

/-! The invariant. -/

/-- No response is pending. -/
def NothingPending (s : State) : Prop := s.status = none ∧ s.out = none ∧ s.result = none

/-- CK is part of the way through `In`: where it stands, and what `ACC` holds there (R108, R92 to R95). -/
def CkInv (s : State) : Prop :=
  s.written.input = true ∧
  match s.ckPhase with
  | .init => s.result = none
  | .add  => s.written.acc = true ∧ s.ckI % 2 = 0 ∧ s.ckI ≤ s.input.length ∧
      s.acc = wordSum (s.input.take s.ckI) ∧ s.result = none
  | .tail => s.written.acc = true ∧ s.ckI % 2 = 0 ∧ s.ckI + 1 = s.input.length ∧
      s.acc = wordSum (s.input.take s.ckI) ∧ s.result = none
  | .fold => s.written.acc = true ∧ s.ckI = s.input.length ∧ foldStar s.acc = foldStar (wordSum s.input) ∧ s.result = none
  | .done => s.ckI = s.input.length ∧ s.acc = foldStar (wordSum s.input) ∧ s.result = some (checksumOf s.input)

/-- The step of BUILD that writes byte `k` of `HBUF` (10_state.md R14). -/
def stepOfByte (k : Nat) : Nat :=
  if k = 0 then 2 else if k = 1 then 3 else if k ≤ 3 then 4 else if k ≤ 5 then 5 else if k ≤ 7 then 6
  else if k = 8 then 7 else if k = 9 then 8 else if k ≤ 11 then 9 else if k ≤ 15 then 10 else 11

/-- Every byte of `HBUF` that a step before the present one writes is written and holds its field (R14, R72 to R81). -/
def BytesDone (s : State) : Prop :=
  ∀ (k : Nat) (h : k < Config.hdrLen), stepOfByte k < s.hbStep.number →
    s.written.hbuf[k] = true ∧ (s.hbStep ≠ .payload → s.hbuf[k] = (headerWith s.operands 0).getD k 0)

/-- `HBUF` holds the final header, checksum included, and CK stands where it ended over the header with the placeholder
(40_header_builder.md R70, R82). -/
def HeaderDone (s : State) : Prop :=
  s.hbuf.toList = headerOf s.operands ∧ s.headerChecksum = checksumOf (headerWith s.operands 0) ∧
  s.totalLength = BitVec.ofNat 16 (totalLengthOf s.operands) ∧ s.hbStep = .payload ∧
  s.ckPhase = .done ∧ s.input = headerWith s.operands 0 ∧ s.ckI = Config.hdrLen ∧
  s.acc = foldStar (wordSum (headerWith s.operands 0))

/-- HB is part of the way through a BUILD it has not rejected. -/
def HbInv (s : State) : Prop :=
  s.out = none ∧ s.written.operands = true ∧ BytesDone s ∧
  (s.hbStep ≠ .validate → fieldsValid s.operands = true ∧ s.written.totalLength = true ∧
    s.totalLength = BitVec.ofNat 16 (totalLengthOf s.operands)) ∧
  (s.ckPhase = .init → s.result = none) ∧
  (s.hbStep ≠ .checksum → s.hbStep ≠ .payload → s.ckPhase = .init) ∧
  (s.hbStep = .checksum → s.ckPhase ≠ .init → CkInv s ∧ s.input = headerWith s.operands 0) ∧
  (s.hbStep = .payload → HeaderDone s)

/-- A BUILD is in progress: HB is at work, with no status pending (log 33), or its response is pending and is the one owed. -/
def BuildInv (s : State) : Prop :=
  match s.status with
  | none               => HbInv s
  | some .ok           => fieldsValid s.operands = true ∧ s.out = some (headerOf s.operands ++ s.operands.payload) ∧ HeaderDone s
  | some .invalidField => fieldsValid s.operands = false ∧ s.out = none

/-- The invariant: an idle block has no response pending (R20, R140), and the registers of an operation in progress hold what
its steps so far have put there, so that no register is read before it is written (R21). -/
def MachineInv (s : State) : Prop :=
  if s.busy then
    match s.op with
    | .csum  => s.status = none ∧ s.out = none ∧ CkInv s
    | .build => BuildInv s
  else NothingPending s

/-- The step does not stop with a fault. -/
def NoFault (o : Out) : Prop := ∀ r, o ≠ .fault r

/-- What of a state the host, the channel and later requests can see: everything but the working registers (10_state.md R19). -/
structure HostView where
  busy      : Bool
  pending   : List (List Byte)
  delivered : List Response
  verdict   : Option Verdict
  seqEnd    : Option SeqEnd
  channel   : Channel
deriving DecidableEq, Repr

/-- The host's view of a state. -/
def hostView (s : State) : HostView :=
  { busy := s.busy, pending := s.pending, delivered := s.delivered, verdict := s.verdict, seqEnd := s.seqEnd,
    channel := s.channel }

/-- The bytes handed to the channel, in order. -/
def Channel.stream (c : Channel) : List Byte := c.sent.flatten

end Sys2Proof.Machine
end

