-- ==== Sys2Proof/Certificates/Slice0/Obligations.lean ====
section
/-! DEFINITION. The statements for the provers, in the order of OBLIGATIONS.json. -/

open Sys2Proof Sys2Proof.Machine

/-! Records and steps. -/

/-- Every well-formed instruction comes back from its record, with every operand at every value (30_encoding.md R59; the byte
layout is the model's, logs 1 to 3). -/
def Obligations.DecodeOfEncodeGivesInstruction : Prop :=
  ∀ i : Instr, i.wf = true → decode (encode i) = .ok i

/-- A record the decoder accepts is the record of what it reads, which is well-formed: no two records mean one instruction
(the byte layout is the model's, logs 1 to 3). -/
def Obligations.EncodeOfDecodeGivesRecord : Prop :=
  ∀ (record : List Byte) (i : Instr), decode record = .ok i → encode i = record ∧ i.wf = true

/-- Bit 0 of a record is the operation select: 0 for CSUM and what expands to it, 1 for BUILD and what expands to it; and each
of the two values alone in byte 0 selects its operation (R60; that the bit stands in byte 0 is the model's, log 1). -/
def Obligations.FirstBitSelectsOperation : Prop :=
  (∀ i : Instr, ∃ b r, encode i = b :: r ∧ b.getLsbD 0 = decide (i.op = .build)) ∧
  (∀ r : List Byte, decode (0 :: r) = .ok (.csum r)) ∧
  (∀ f : Fields, payloadFits f.payload = true → ∃ r, encode (.build f) = 1 :: r ∧ decode (1 :: r) = .ok (.build f))

/-- Words written out from the record layout decode to what they stand for (30_encoding.md R59; logs 1, 2). -/
def Obligations.WrittenRecordsDecode : Prop :=
  decode [0x00, 0x12, 0x34, 0x56] = .ok (.csum [0x12, 0x34, 0x56]) ∧
  decode [0x02, 0x45, 0x00] = .ok (.verify [0x45, 0x00]) ∧
  decode [0x05] = .ok .genseq ∧
  decode [0x01, 0x04, 0x05, 0x10, 0xBE, 0xEF, 0x32, 0x34, 0x40, 0x11, 0x0A, 0x00, 0x00, 0x01, 0x0A, 0x00, 0x00, 0x02,
      0x00, 0x00, 0x00, 0x02, 0xAA, 0xBB] =
    .ok (.build { version := 4, headerLengthWords := 5, typeOfService := 0x10, identification := 0xBEEF, flags := 1,
                  fragmentOffset := 0x1234, timeToLive := 64, protocol := 17, source := ⟨10, 0, 0, 1⟩,
                  destination := ⟨10, 0, 0, 2⟩, payload := [0xAA, 0xBB] }) ∧
  decode [0x03, 0, 1, 6, 0, 0, 0, 0, 1, 49, 0, 0, 0xC0, 0x00, 0x02, 0x01, 0x00, 0x00, 0x00, 0x00] =
    .ok (.buildDef { headerLengthWords := some 6, timeToLive := some 49 } ⟨192, 0, 2, 1⟩ [])

/-- A step runs the instruction its oldest record decodes to, with that record taken (10_state.md R20, 20_memory.md R44). -/
def Obligations.StepRunsDecodedRequest : Prop :=
  ∀ (s : State) (record : List Byte) (rest : List (List Byte)) (i : Instr),
    s.pending = record :: rest → decode record = .ok i → step s = exec i { s with pending := rest }

/-- With no request waiting an idle block stays as it is (60_exceptions.md R133), a busy one runs its operation to the response
(20_memory.md R42; that one step does so is log 20), and a record that is no request is refused, at once on a
busy block too (the model's choice, log 4). -/
def Obligations.StepWithoutRequest : Prop :=
  (∀ s : State, s.pending = [] → s.busy = false → step s = .next s) ∧
  (∀ s : State, MachineInv s → s.busy = true → s.pending = [] →
    ∃ u, step s = .next u ∧ u.busy = false ∧ u.delivered = answerTo (requestInProgress s) :: s.delivered ∧ u.pending = [] ∧
      u.channel = s.channel ∧ u.verdict = s.verdict ∧ u.seqEnd = s.seqEnd) ∧
  (∀ (s : State) (record : List Byte) (rest : List (List Byte)) (e : DecodeError),
    s.pending = record :: rest → decode record = .error e → step s = .refused (.malformedRecord e))

/-- A queue of requests of any length is served to the end, each to completion, in the order of presentation, each with the
answer its own operands call for (20_memory.md R40, 10_state.md R19). -/
def Obligations.RequestQueueServedInOrder : Prop :=
  ∀ (requests : List Request) (s : State),
    (∀ r ∈ requests, (instrOf r).wf = true) → s.busy = false → s.pending = requests.map (fun r => encode (instrOf r)) →
    ∃ t, core.run requests.length s = .next t ∧ t.delivered = (requests.map answerTo).reverse ++ s.delivered ∧
      t.pending = [] ∧ t.busy = false

/-! The invariant. -/

/-- The state after reset meets the invariant. -/
def Obligations.ResetMeetsInvariant : Prop := MachineInv State.reset

/-- Every step keeps the invariant: an idle block has no response pending, and the registers of an operation in progress hold
what its steps so far have put there (10_state.md R14, R15, R19 to R21). The states inside an operation are reached by an
acceptance, which establishes it, and by micro-steps, which keep it. -/
def Obligations.StepKeepsInvariant : Prop :=
  (∀ s t : State, MachineInv s → step s = .next t → MachineInv t) ∧
  (∀ (r : Request) (s : State), MachineInv (accept r s)) ∧
  (∀ s t : State, MachineInv s → tick s = .next t → MachineInv t)

/-- No instruction reads a register before its first write in the operation, and none stops for any other reason: from every
state that meets the invariant, busy or not, it completes, and the block is idle again (10_state.md R21, 60_exceptions.md
R122, R134). -/
def Obligations.EveryInstructionCompletes : Prop :=
  ∀ (i : Instr) (s : State), MachineInv s → ∃ t, exec i s = .next t ∧ t.busy = false ∧ MachineInv t

/-- A read of a working register before its first write in the current operation is a fault, at every place that reads one: In
in ADD and TAIL; ACC in ADD, TAIL and FOLD; in a BUILD too where CK does step 12; the operand latches in the ten steps of BUILD
that read one; totalLength in step 4; HBUF in steps 12 and 13 (10_state.md R21 for HBUF, ACC and the operand latches; that In,
totalLength, and a RESULT or an OUT that is not there are guarded in the same way is the model's, log 6). -/
def Obligations.ReadBeforeWriteFaults : Prop :=
  ∀ s : State,
    (CkAtWork s → s.written.input = false → s.ckPhase ∈ [CkPhase.add, .tail] →
      tick s = .fault (.readBeforeWrite .input)) ∧
    (CkAtWork s → s.written.acc = false →
      (s.ckPhase = .fold → tick s = .fault (.readBeforeWrite .acc)) ∧
      (s.written.input = true → s.ckPhase = .add → s.ckI + 1 < s.input.length →
        tick s = .fault (.readBeforeWrite .acc)) ∧
      (s.written.input = true → s.ckPhase = .tail → s.input ≠ [] → tick s = .fault (.readBeforeWrite .acc))) ∧
    (s.busy = true → s.op = .build → s.status = none →
      (s.written.operands = false →
        s.hbStep ∈ [HbStep.validate, .byte0, .typeOfService, .identification, .flagsFragment, .timeToLive, .protocol,
          .source, .destination, .payload] →
        tick s = .fault (.readBeforeWrite .operands)) ∧
      (s.written.totalLength = false → s.hbStep = .totalLength → tick s = .fault (.readBeforeWrite .totalLength)) ∧
      ((∃ k, ∃ h : k < 20, s.written.hbuf[k] = false) →
        (s.hbStep = .checksum → s.ckPhase = .init → tick s = .fault (.readBeforeWrite .hbuf)) ∧
        (s.hbStep = .payload → s.written.operands = true → tick s = .fault (.readBeforeWrite .hbuf)))) ∧
    (CkAtWork s → s.ckPhase = .done → s.result = none → tick s = .fault (.readBeforeWrite .result)) ∧
    (s.busy = true → s.op = .build → s.status = some .ok → s.out = none → tick s = .fault (.readBeforeWrite .out))

/-! CSUM and VERIFY. -/

/-- CSUM answers 0xFFFF − fold*(S) for every input of every length, where fold*(S) is where the fold loop started at S ends:
0 for S = 0, else ((S − 1) mod 65535) + 1, the one number in 1..65535 congruent to S modulo 65535 (41_checksum.md R96). -/
def Obligations.CsumAnswersInternetChecksum : Prop :=
  (∀ (input : List Byte) (s : State), s.busy = false →
    ∃ t, exec (.csum input) s = .next t ∧
      t.delivered = .result (BitVec.ofNat 16 (0xFFFF - foldStar (exactWordSum input))) :: s.delivered) ∧
  (∀ S : Nat, ∃ passes : Nat, foldPass^[passes] S = foldStar S ∧ foldStar S ≤ 0xFFFF ∧
    (∀ m, m < passes → foldPass^[m] S > 0xFFFF)) ∧
  foldStar 0 = 0 ∧
  (∀ S : Nat, 0 < S → foldStar S = (S - 1) % 65535 + 1 ∧ foldStar S % 65535 = S % 65535 ∧
    (∀ v : Nat, 1 ≤ v → v ≤ 65535 → v % 65535 = S % 65535 → v = foldStar S))

/-- The registers after a CSUM: CK's own hold its last step, HB.step is 1 as acceptance set it, no response is pending; the
operand latches of BUILD, HBUF, totalLength, headerChecksum and everything of the host but the response are unchanged
(41_checksum.md R90, R91, R95; 10_state.md R20, R21). That the registers keep these values after the delivery is the model's
choice (log 11). -/
def Obligations.CsumFrame : Prop :=
  ∀ (input : List Byte) (s t : State), s.busy = false → exec (.csum input) s = .next t →
    t.busy = false ∧ t.op = .csum ∧ t.input = input ∧ t.ckPhase = .done ∧ t.ckI = input.length ∧
    t.acc = foldStar (exactWordSum input) ∧ t.hbStep = .validate ∧ t.status = none ∧ t.out = none ∧ t.result = none ∧
    t.operands = s.operands ∧ t.hbuf = s.hbuf ∧ t.totalLength = s.totalLength ∧ t.headerChecksum = s.headerChecksum ∧
    t.pending = s.pending ∧ t.verdict = s.verdict ∧ t.seqEnd = s.seqEnd ∧ t.channel = s.channel

/-- The step relation of CK, row by row (41_checksum.md R108), in a CSUM and in step 12 of a BUILD alike. A row's effect is all
its effect: every other register is unchanged; the first write of ACC is marked (10_state.md R21). How a BUILD hands CK its
operand and takes its result is ChecksumTakenOverFinishedHeader and BuildStepTwelveFillsChecksum. -/
def Obligations.CkStepTable : Prop :=
  ∀ s : State,
    (s.busy = true → s.op = .csum → s.ckPhase = .init →
      tick s = .next { s with acc := 0, ckI := 0, ckPhase := .add, written := { s.written with acc := true } }) ∧
    (CkAtWork s → s.written.input = true →
      (s.ckPhase = .add → s.ckI + 1 = s.input.length → tick s = .next { s with ckPhase := .tail }) ∧
      (s.ckPhase = .add → s.ckI = s.input.length → tick s = .next { s with ckPhase := .fold })) ∧
    (CkAtWork s → s.written.input = true → s.written.acc = true →
      (s.ckPhase = .add → ∀ hi lo, s.input[s.ckI]? = some hi → s.input[s.ckI + 1]? = some lo →
        tick s = .next { s with acc := s.acc + (hi.toNat * 256 + lo.toNat), ckI := s.ckI + 2 }) ∧
      (s.ckPhase = .tail → ∀ b, s.input.getLast? = some b →
        tick s = .next { s with acc := s.acc + b.toNat * 256, ckI := s.input.length, ckPhase := .fold })) ∧
    (CkAtWork s → s.written.acc = true →
      (s.ckPhase = .fold → s.acc > 0xFFFF → tick s = .next { s with acc := s.acc % 65536 + s.acc / 65536 }) ∧
      (s.ckPhase = .fold → s.acc ≤ 0xFFFF →
        tick s = .next { s with result := some (BitVec.ofNat 16 (0xFFFF - s.acc)), ckPhase := .done })) ∧
    (s.busy = true → s.op = .csum → s.ckPhase = .done → ∀ r, s.result = some r →
      tick s = .next { s with busy := false, status := none, out := none, result := none,
                              delivered := .result r :: s.delivered })

/-- The fold ends: a pass makes the value smaller, two passes are enough below 2^32 and sometimes needed: 0x1FFFF takes two, and
CSUM of FF FF FF FF 00 01 is 0xFFFE (41_checksum.md R94, R99; 70_reset_and_hazards.md R144). -/
def Obligations.FoldEndsAndHowSoon : Prop :=
  (∀ acc, acc > 0xFFFF → foldPass acc < acc) ∧
  (∀ acc, acc < 2 ^ 32 → foldPass acc ≤ 0x1FFFE ∧ foldPass (foldPass acc) ≤ 0xFFFF) ∧
  foldPass 0x1FFFF = 0x10000 ∧ foldPass 0x10000 = 1 ∧
  (∀ s : State, s.busy = false → Answers (.csum [0xFF, 0xFF, 0xFF, 0xFF, 0x00, 0x01]) s (.result 0xFFFE))

/-- The fold must loop inside BUILD too: an accepted request exists whose header sum still exceeds 0xFFFF after one pass, and its
checksum is the one of the full fold. R99's remark that "one pass always suffices inside `BUILD`" overlooks sums such as
0x1FFFF (log 32); the rules R94 and R96 decide. -/
def Obligations.HeaderFoldMayNeedTwoPasses : Prop :=
  ∃ f : Fields, Accepts f ∧ exactWordSum (headerWith f 0) = 0x1FFFF ∧ foldPass (exactWordSum (headerWith f 0)) > 0xFFFF ∧
    ∀ s : State, s.busy = false → ∃ out, Answers (.build f) s (.ok out) ∧ getChecksum out = 0xFFFE

/-- The laws of the result (41_checksum.md R101): (a) the order of the words does not matter, that of the bytes of a word does;
(b) zero words and the padding byte change nothing; (c) sums add over an even cut; (d) a word 0xFFFF changes nothing when
S > 0, and takes 0xFFFF to 0x0000 when S = 0. -/
def Obligations.ChecksumLaws : Prop :=
  ∀ s : State, s.busy = false →
    (∀ (ws ws' : List (Byte × Byte)) (r : Response), ws.Perm ws' →
      (Answers (.csum (ws.flatMap fun w => [w.1, w.2])) s r ↔ Answers (.csum (ws'.flatMap fun w => [w.1, w.2])) s r)) ∧
    (Answers (.csum [0x12, 0x34, 0x56, 0x78]) s (.result 0x9753) ∧ Answers (.csum [0x56, 0x78, 0x12, 0x34]) s (.result 0x9753) ∧
      Answers (.csum [0x12, 0x34]) s (.result 0xEDCB) ∧ Answers (.csum [0x34, 0x12]) s (.result 0xCBED)) ∧
    (∀ (u v : List Byte) (r : Response), u.length % 2 = 0 →
      (Answers (.csum (u ++ [0x00, 0x00] ++ v)) s r ↔ Answers (.csum (u ++ v)) s r)) ∧
    (∀ (u : List Byte) (r : Response), u.length % 2 = 1 → (Answers (.csum (u ++ [0x00])) s r ↔ Answers (.csum u) s r)) ∧
    (∀ u v : List Byte, u.length % 2 = 0 → exactWordSum (u ++ v) = exactWordSum u + exactWordSum v) ∧
    (∀ (u v : List Byte) (r : Response), u.length % 2 = 0 → 0 < exactWordSum (u ++ v) →
      (Answers (.csum (u ++ [0xFF, 0xFF] ++ v)) s r ↔ Answers (.csum (u ++ v)) s r)) ∧
    (∀ u v : List Byte, u.length % 2 = 0 → exactWordSum (u ++ v) = 0 →
      Answers (.csum (u ++ v)) s (.result 0xFFFF) ∧ Answers (.csum (u ++ [0xFF, 0xFF] ++ v)) s (.result 0x0000))

/-- The two extreme results (41_checksum.md R102): 0xFFFF exactly when S = 0, which is when every byte is 0x00; 0x0000 exactly
when S is a positive multiple of 65535, as for FF FF; the folded sum is never 0 when S > 0; inside BUILD S ≥ W0 ≥ 0x4500, so
the checksum of an accepted BUILD is never 0xFFFF. -/
def Obligations.ExtremeResults : Prop :=
  ∀ s : State, s.busy = false →
    (∀ input : List Byte, Answers (.csum input) s (.result 0xFFFF) ↔ exactWordSum input = 0) ∧
    (∀ input : List Byte, exactWordSum input = 0 ↔ ∀ b ∈ input, b = 0x00) ∧
    (∀ input : List Byte, Answers (.csum input) s (.result 0x0000) ↔ 0 < exactWordSum input ∧ 65535 ∣ exactWordSum input) ∧
    Answers (.csum [0xFF, 0xFF]) s (.result 0x0000) ∧
    (∀ S : Nat, 0 < S → foldStar S ≠ 0) ∧
    (∀ f : Fields, Accepts f → ∃ w0 : Word, w0 = word (0x40 ||| f.headerLengthWords) f.typeOfService ∧
      0x4500 ≤ w0.toNat ∧ w0.toNat ≤ exactWordSum (headerWith f 0)) ∧
    (∀ (f : Fields) (bytes : List Byte), Answers (.build f) s (.ok bytes) → getChecksum bytes ≠ 0xFFFF)

/-- Self-consistency (41_checksum.md R105): with its checksum put into bytes 10-11, any sequence of even length at least 12 that
was zero there checksums to 0x0000; so do the first 20 bytes of every packet BUILD answers with. -/
def Obligations.ChecksumSelfConsistency : Prop :=
  ∀ s : State, s.busy = false →
    (∀ (h : List Byte) (c : Word), h.length % 2 = 0 → 12 ≤ h.length → h[10]? = some 0 → h[11]? = some 0 →
      Answers (.csum h) s (.result c) →
      Answers (.csum ((h.set 10 (hiByte c)).set 11 (loByte c))) s (.result 0x0000)) ∧
    (∀ (f : Fields) (bytes : List Byte), Answers (.build f) s (.ok bytes) →
      Answers (.csum (bytes.take 20)) s (.result 0x0000))

/-- No carry is lost however long the input (41_checksum.md R100): for every input cut anywhere at an even offset, folding the
sum of the first part early, any number of times, and going on with the rest gives the same answer; an even positive number of
bytes 0xFF, which sums to a multiple of 65535, answers 0x0000, beyond 2^32 too, and an odd number of them answers 0x00FF. That
ACC is a natural number is the model column of R5 (log 16). -/
def Obligations.LongInputsKeepEveryCarry : Prop :=
  (∀ (u v : List Byte) (passes : Nat) (s : State), u.length % 2 = 0 → s.busy = false →
    Answers (.csum (u ++ v)) s
      (.result (BitVec.ofNat 16 (0xFFFF - foldStar (foldPass^[passes] (exactWordSum u) + exactWordSum v))))) ∧
  (∀ (n : Nat) (s : State), 0 < n → s.busy = false → Answers (.csum (List.replicate (2 * n) 0xFF)) s (.result 0x0000)) ∧
  (∀ (n : Nat) (s : State), s.busy = false → Answers (.csum (List.replicate (2 * n + 1) 0xFF)) s (.result 0x00FF))

/-- The edge cases and the known vector (41_checksum.md R97, R103): the empty input, one byte in the high position, and the
document's header. -/
def Obligations.CsumEdgeCasesAndKnownVector : Prop :=
  ∀ s : State, s.busy = false →
    Answers (.csum []) s (.result 0xFFFF) ∧
    (∀ b : Byte, Answers (.csum [b]) s (.result (BitVec.ofNat 16 (0xFFFF - b.toNat * 256)))) ∧
    Answers (.csum [0x12]) s (.result 0xEDFF) ∧
    Answers (.csum [0x45, 0x00, 0x00, 0x30, 0x44, 0x22, 0x40, 0x00, 0x80, 0x06, 0x00, 0x00, 0x8C, 0x7C, 0x19, 0xAC, 0xAE,
      0x24, 0x1E, 0x2B]) s (.result 0x442E)

/-- VERIFY concludes valid exactly when the word sum is positive and a multiple of 65535, delivers the result it compared, finds
twenty zero bytes invalid and the document's header with its checksum valid (41_checksum.md R104). -/
def Obligations.VerifyConcludes : Prop :=
  ∀ (input : List Byte) (s : State), s.busy = false →
    (∃ t r, exec (.verify input) s = .next t ∧ Answers (.csum input) s (.result r) ∧ t.delivered = .result r :: s.delivered ∧
      t.verdict = some (if r = 0x0000 then .valid else .invalid) ∧
      (r = 0x0000 ↔ 0 < exactWordSum input ∧ 65535 ∣ exactWordSum input)) ∧
    (∃ t, exec (.verify (List.replicate 20 0x00)) s = .next t ∧ t.verdict = some .invalid) ∧
    (∃ t, exec (.verify [0x45, 0x00, 0x00, 0x30, 0x44, 0x22, 0x40, 0x00, 0x80, 0x06, 0x44, 0x2E, 0x8C, 0x7C, 0x19, 0xAC, 0xAE,
      0x24, 0x1E, 0x2B]) s = .next t ∧ t.verdict = some .valid)

/-- VERIFY is CSUM and the host's conclusion: it leaves the state as CSUM leaves it but for the verdict; so the operand latches
of BUILD, HBUF, the computed fields, the waiting requests and the channel are unchanged (41_checksum.md R104). -/
def Obligations.VerifyFrame : Prop :=
  ∀ (input : List Byte) (s t : State), s.busy = false → exec (.verify input) s = .next t →
    ∃ u, exec (.csum input) s = .next u ∧ t = { u with verdict := t.verdict } ∧
      t.operands = s.operands ∧ t.hbuf = s.hbuf ∧ t.totalLength = s.totalLength ∧ t.headerChecksum = s.headerChecksum ∧
      t.pending = s.pending ∧ t.seqEnd = s.seqEnd ∧ t.channel = s.channel ∧ t.busy = false

/-! BUILD and BUILD.DEF. -/

/-- BUILD in closed form (40_header_builder.md R84): InvalidField when the version is not 4, the header length is not 5 to 15 or
the payload is longer than 65515; otherwise OK, with c the CSUM of the header with zeros in bytes 10-11. -/
def Obligations.BuildAnswersClosedForm : Prop :=
  ∀ (f : Fields) (s : State), s.busy = false →
    (f.version ≠ 4 ∨ f.headerLengthWords.toNat < 5 ∨ f.headerLengthWords.toNat > 15 ∨ f.payload.length > 65515 →
      ∃ t, exec (.build f) s = .next t ∧ t.delivered = .invalidField :: s.delivered) ∧
    (¬(f.version ≠ 4 ∨ f.headerLengthWords.toNat < 5 ∨ f.headerLengthWords.toNat > 15 ∨ f.payload.length > 65515) →
      ∃ t c, exec (.build f) s = .next t ∧ Answers (.csum (headerWith f 0)) s (.result c) ∧
        t.delivered = .ok (headerWith f c ++ f.payload) :: s.delivered)

/-- InvalidField is answered for the illegal values of version, headerLengthWords and payloadLength and for nothing else, low
bits that would fit notwithstanding; CSUM answers every input with a result (30_encoding.md R62). -/
def Obligations.IllegalValuesRaiseInvalidField : Prop :=
  ∀ s : State, s.busy = false →
    (∀ f : Fields, Answers (.build f) s .invalidField ↔
      f.version ≠ 4 ∨ f.headerLengthWords.toNat < 5 ∨ f.headerLengthWords.toNat > 15 ∨ f.payloadLength > 65515) ∧
    (∀ input : List Byte, ∃ r, Answers (.csum input) s (.result r))

/-- What InvalidField does (60_exceptions.md R128): the one thing delivered is the status; the operands stay as presented; the
operation ends at step 1, so HBUF, totalLength and headerChecksum are not written; CK is not started, so its In, CK.i and ACC
are not written; nothing is saved and no response stays pending; busy falls; nothing of the host moves but the response. That
the latches, HB.step and CK.phase keep what acceptance gave them after the delivery is the model's choice (log 11). -/
def Obligations.InvalidFieldEntry : Prop :=
  ∀ (f : Fields) (s : State), s.busy = false → ¬Accepts f →
    ∃ t, exec (.build f) s = .next t ∧ t.delivered = .invalidField :: s.delivered ∧ t.operands = f ∧ t.busy = false ∧
      t.hbStep = .validate ∧ t.hbuf = s.hbuf ∧ t.totalLength = s.totalLength ∧ t.headerChecksum = s.headerChecksum ∧
      t.ckPhase = .init ∧ t.input = s.input ∧ t.ckI = s.ckI ∧ t.acc = s.acc ∧
      t.status = none ∧ t.out = none ∧ t.result = none ∧
      t.pending = s.pending ∧ t.verdict = s.verdict ∧ t.seqEnd = s.seqEnd ∧ t.channel = s.channel

/-- The registers after an accepted BUILD: the operands as presented, HBUF the final header, totalLength and headerChecksum the
two computed fields, HB.step 13; CK's registers (In, CK.phase, CK.i, ACC) as its run over the header with the placeholder left
them; no response pending; everything of the host but the response is unchanged (40_header_builder.md R70, R82; 10_state.md R10,
R13, R20). That the registers keep these values after the delivery is the model's choice (log 11). -/
def Obligations.BuildFrame : Prop :=
  ∀ (f : Fields) (s t : State), s.busy = false → Accepts f → exec (.build f) s = .next t →
    t.busy = false ∧ t.op = .build ∧ t.operands = f ∧ t.hbuf.toList = headerOf f ∧
    t.totalLength.toNat = 20 + f.payload.length ∧ t.headerChecksum = checksumOf (headerWith f 0) ∧ t.hbStep = .payload ∧
    t.input = headerWith f 0 ∧ t.ckPhase = .done ∧ t.ckI = 20 ∧ t.acc = foldStar (exactWordSum (headerWith f 0)) ∧
    t.status = none ∧ t.out = none ∧ t.result = none ∧
    t.pending = s.pending ∧ t.verdict = s.verdict ∧ t.seqEnd = s.seqEnd ∧ t.channel = s.channel

/-- The round trip: the accessors give back every operand of an accepted request, the computed length and the checksum, and the
payload follows at offset 20 (30_encoding.md R57). -/
def Obligations.AccessorsGiveOperandsBack : Prop :=
  ∀ (f : Fields) (s : State) (out : List Byte), s.busy = false → Answers (.build f) s (.ok out) →
    let h := out.take 20
    getVersion h = f.version ∧ f.version = 4 ∧ getIhl h = f.headerLengthWords ∧ getTos h = f.typeOfService ∧
    (getTotalLength h).toNat = 20 + f.payloadLength ∧ getIdentification h = f.identification ∧ getFlags h = f.flags ∧
    getFragmentOffset h = f.fragmentOffset ∧ getTtl h = f.timeToLive ∧ getProtocol h = f.protocol ∧
    getSource h = f.source ∧ getDestination h = f.destination ∧
    Answers (.csum ((h.set 10 0).set 11 0)) s (.result (getChecksum h)) ∧
    (out.drop 20).take f.payloadLength = f.payload

/-- The length of the packet is 20 + payloadLength, 20 to 65535, the value of its own totalLength field, and the same whatever
accepted header length is asked for (30_encoding.md R58). -/
def Obligations.PacketLength : Prop :=
  ∀ (f : Fields) (s : State) (out : List Byte), s.busy = false → Answers (.build f) s (.ok out) →
    (∃ header : List Byte, header.length = 20 ∧ out = header ++ f.payload) ∧
    out.length = 20 + f.payloadLength ∧ 20 ≤ out.length ∧ out.length ≤ 65535 ∧ out.length = (getTotalLength out).toNat ∧
    (∀ (l : BitVec 8) (out' : List Byte), Answers (.build { f with headerLengthWords := l }) s (.ok out') →
      out'.length = out.length)

/-- Every field stands at its wire bit offset, most significant bit first (30_encoding.md R50, 00_scope.md R8). -/
def Obligations.FieldsAtWireBitOffsets : Prop :=
  ∀ (f : Fields) (s : State) (out : List Byte), s.busy = false → Answers (.build f) s (.ok out) →
    wireField out 0 4 = f.version.toNat ∧ wireField out 4 4 = f.headerLengthWords.toNat ∧
    wireField out 8 8 = f.typeOfService.toNat ∧ wireField out 16 16 = 20 + f.payloadLength ∧
    wireField out 32 16 = f.identification.toNat ∧ wireField out 48 3 = f.flags.toNat ∧
    wireField out 51 13 = f.fragmentOffset.toNat ∧ wireField out 64 8 = f.timeToLive.toNat ∧
    wireField out 72 8 = f.protocol.toNat ∧ wireField out 80 16 = (getChecksum out).toNat ∧
    wireField out 96 32 = ((f.source.o0.toNat * 256 + f.source.o1.toNat) * 256 + f.source.o2.toNat) * 256 + f.source.o3.toNat ∧
    wireField out 128 32 =
      ((f.destination.o0.toNat * 256 + f.destination.o1.toNat) * 256 + f.destination.o2.toNat) * 256 + f.destination.o3.toNat

/-- Step 1 (40_header_builder.md R71): when the three checks pass, totalLength is 20 + payloadLength and step 2 is next; when one
fails the status is InvalidField and nothing else is written, and the operation ends there: the response is delivered next, no
byte is produced, and no later step is done. The code of the status is 0 for OK and 1 for InvalidField (30_encoding.md R61,
60_exceptions.md R120). That the raise only sets the status and the next micro-step delivers it and ends the operation is the
model's inference (log 10); that a passing check leaves the status unset is its choice (log 33). -/
def Obligations.BuildStepOneValidates : Prop :=
  Status.code .ok = 0 ∧ Status.code .invalidField = 1 ∧
  ∀ s : State, s.busy = true → s.op = .build → s.status = none → s.hbStep = .validate → s.written.operands = true →
    (s.operands.version.toNat = 4 ∧ 5 ≤ s.operands.headerLengthWords.toNat ∧ s.operands.headerLengthWords.toNat ≤ 15 ∧
        20 + s.operands.payloadLength ≤ 65535 →
      tick s = .next { s with totalLength := BitVec.ofNat 16 (20 + s.operands.payloadLength), hbStep := .byte0,
                              written := { s.written with totalLength := true } }) ∧
    (¬(s.operands.version.toNat = 4 ∧ 5 ≤ s.operands.headerLengthWords.toNat ∧ s.operands.headerLengthWords.toNat ≤ 15 ∧
        20 + s.operands.payloadLength ≤ 65535) →
      tick s = .next { s with status := some .invalidField } ∧
      ∃ u, tick { s with status := some .invalidField } = .next u ∧ u.busy = false ∧ u.hbStep = .validate ∧
        u.delivered = .invalidField :: s.delivered ∧ u.hbuf = s.hbuf ∧ u.totalLength = s.totalLength ∧ u.out = none)

/-- Steps 2 to 11 (40_header_builder.md R72 to R81): each writes its bytes of HBUF from its operand, marks them written and
moves on, and changes nothing else (a BUILD in these steps has no status yet, log 33). -/
def Obligations.BuildStepsTwoToElevenPack : Prop :=
  ∀ (s : State) (f : Fields), s.busy = true → s.op = .build → s.status = none → s.written.operands = true →
    s.written.totalLength = true → s.operands = f →
    (s.hbStep = .byte0 → tick s = .next (advance (writeByte 0 ((f.version <<< 4) ||| f.headerLengthWords) s))) ∧
    (Accepts f → (f.version <<< 4) ||| f.headerLengthWords = 0x40 ||| f.headerLengthWords ∧
      0x45 ≤ (0x40 ||| f.headerLengthWords).toNat ∧ (0x40 ||| f.headerLengthWords).toNat ≤ 0x4F) ∧
    (s.hbStep = .typeOfService → tick s = .next (advance (writeByte 1 f.typeOfService s))) ∧
    (s.hbStep = .totalLength → tick s = .next (advance (writeByte 3 (s.totalLength.setWidth 8)
      (writeByte 2 ((s.totalLength >>> 8).setWidth 8) s)))) ∧
    (s.hbStep = .identification → tick s = .next (advance (writeByte 5 (f.identification.setWidth 8)
      (writeByte 4 ((f.identification >>> 8).setWidth 8) s)))) ∧
    (s.hbStep = .flagsFragment → tick s = .next (advance (writeByte 7 (f.fragmentOffset.setWidth 8)
      (writeByte 6 ((f.flags.setWidth 8 <<< 5) ||| (f.fragmentOffset >>> 8).setWidth 8) s)))) ∧
    (s.hbStep = .timeToLive → tick s = .next (advance (writeByte 8 f.timeToLive s))) ∧
    (s.hbStep = .protocol → tick s = .next (advance (writeByte 9 f.protocol s))) ∧
    (s.hbStep = .placeholder → tick s = .next (advance (writeByte 11 0 (writeByte 10 0 s)))) ∧
    (s.hbStep = .source → tick s = .next (advance (writeByte 15 f.source.o3 (writeByte 14 f.source.o2
      (writeByte 13 f.source.o1 (writeByte 12 f.source.o0 s)))))) ∧
    (s.hbStep = .destination → tick s = .next (advance (writeByte 19 f.destination.o3 (writeByte 18 f.destination.o2
      (writeByte 17 f.destination.o1 (writeByte 16 f.destination.o0 s))))))

/-- Writing byte k of HBUF writes that byte and its mark and nothing else; an operation moves HB.step on by one and nothing else
(00_scope.md R7, 10_state.md R13, R14). -/
def Obligations.WriteByteWritesOneByte : Prop :=
  (∀ (k : Nat) (v : Byte) (s : State), k < 20 →
    ∃ t, writeByte k v s = t ∧
      (∀ (j : Nat) (h : j < 20), t.hbuf[j] = (if j = k then v else s.hbuf[j]) ∧
        t.written.hbuf[j] = (if j = k then true else s.written.hbuf[j])) ∧
      t = { s with hbuf := t.hbuf, written := { s.written with hbuf := t.written.hbuf } }) ∧
  (∀ s : State, s.hbStep ≠ .payload →
    (advance s).hbStep.number = s.hbStep.number + 1 ∧ advance s = { s with hbStep := (advance s).hbStep })

/-- Step 12 from its start to its end (40_header_builder.md R82): some number of micro-steps of CK later the checksum of the 20
bytes HBUF held stands big-endian in bytes 10-11, every other byte is as it was, HB is at step 13, nothing has been delivered;
the checksum is never 0xFFFF. The micro-step that takes CK's result writes it to headerChecksum and to bytes 10-11, moves on to
step 13, and changes nothing else (no status is pending in this step, log 33). -/
def Obligations.BuildStepTwelveFillsChecksum : Prop :=
  (∀ s : State, MachineInv s → s.busy = true → s.op = .build → s.status = none → s.hbStep = .checksum → s.ckPhase = .init →
    ∃ n t c, run n s = .next t ∧ Answers (.csum s.hbuf.toList) State.reset (.result c) ∧ c ≠ 0xFFFF ∧
      t.hbuf = (s.hbuf.setIfInBounds 10 ((c >>> 8).setWidth 8)).setIfInBounds 11 (c.setWidth 8) ∧ t.headerChecksum = c ∧
      t.hbStep = .payload ∧ t.busy = true ∧ t.operands = s.operands ∧ t.delivered = s.delivered ∧ t.channel = s.channel) ∧
  (∀ (s : State) (c : Word), s.busy = true → s.op = .build → s.status = none → s.hbStep = .checksum → s.ckPhase = .done →
    s.result = some c →
    tick s = .next (advance (writeByte 11 (c.setWidth 8) (writeByte 10 ((c >>> 8).setWidth 8) { s with headerChecksum := c }))))

/-- Step 13 (40_header_builder.md R83): OUT is HBUF followed by the payload, its length is totalLength, and the next micro-step
delivers all of it. That step 13 only sets OUT and the status and the next micro-step delivers them is the model's inference
(log 10); that the status OK is set here and not in step 1 is its choice (log 33). -/
def Obligations.BuildStepThirteenResponds : Prop :=
  ∀ s : State, MachineInv s → s.busy = true → s.op = .build → s.status = none → s.hbStep = .payload →
    ∃ t u out, tick s = .next t ∧ t.out = some out ∧ out = s.hbuf.toList ++ s.operands.payload ∧
      out.length = s.totalLength.toNat ∧ t = { s with out := some out, status := some .ok } ∧
      tick t = .next u ∧ u.delivered = .ok out :: s.delivered ∧ u.busy = false

/-- What CK is handed in step 12 (70_reset_and_hazards.md R145, R146, R148): exactly the 20 bytes of HBUF as steps 2 to 11 left
them, all of them written, zeros in bytes 10-11, the payload not among them; ACC and CK.i are 0, CK.phase is ADD, and
nothing else of the state changes (that CK is handed a copy is log 31; that no status is pending here, log 33). -/
def Obligations.ChecksumTakenOverFinishedHeader : Prop :=
  ∀ s : State, MachineInv s → s.busy = true → s.op = .build → s.status = none → s.hbStep = .checksum → s.ckPhase = .init →
    ∃ t, tick s = .next t ∧ t.input = s.hbuf.toList ∧ t.input = headerWith s.operands 0 ∧ t.input.length = 20 ∧
      t.input[10]? = some 0 ∧ t.input[11]? = some 0 ∧ (∀ (k : Nat) (h : k < 20), s.written.hbuf[k] = true) ∧
      t = { s with input := s.hbuf.toList, acc := 0, ckI := 0, ckPhase := .add,
                   written := { s.written with input := true, acc := true } }

/-- Nothing leaves early (20_memory.md R39, 70_reset_and_hazards.md R147): a micro-step that does not end the operation delivers
nothing, and the one that ends it delivers exactly the whole answer; nothing else of the host's side moves. -/
def Obligations.NothingLeavesBeforeTheResponse : Prop :=
  ∀ s t : State, MachineInv s → s.busy = true → tick s = .next t →
    (t.busy = true → t.delivered = s.delivered) ∧
    (t.busy = false → t.delivered = answerTo (requestInProgress s) :: s.delivered) ∧
    t.pending = s.pending ∧ t.channel = s.channel ∧ t.verdict = s.verdict ∧ t.seqEnd = s.seqEnd

/-- HB.step advances by one at a time and never goes back, and stops at 13 (10_state.md R13). -/
def Obligations.BuildStepsAdvanceByOne : Prop :=
  ∀ s t : State, s.busy = true → s.op = .build → tick s = .next t →
    (t.hbStep.number = s.hbStep.number ∨ t.hbStep.number = s.hbStep.number + 1) ∧
    1 ≤ s.hbStep.number ∧ s.hbStep.number ≤ 13 ∧ t.operands = s.operands

/-- The payload's bytes do not enter the header (20_memory.md R32, 70_reset_and_hazards.md R148): two requests that differ in
them alone get the same 20 header bytes. -/
def Obligations.PayloadNeverEntersHeader : Prop :=
  ∀ (f : Fields) (p : List Byte) (s : State) (out out' : List Byte), s.busy = false → p.length = f.payload.length →
    Answers (.build f) s (.ok out) → Answers (.build { f with payload := p }) s (.ok out') →
    out.take 20 = out'.take 20 ∧ out'.drop 20 = p

/-- headerLengthWords 6 to 15 (40_header_builder.md R87): accepted when 5 is, only byte 0 and the checksum differ, the length
does not, and the checksum is that of bytes 0 to 19. -/
def Obligations.HeaderLengthChangesOnlyByteZeroAndChecksum : Prop :=
  ∀ (f : Fields) (l : BitVec 8) (s : State) (out : List Byte), s.busy = false → 6 ≤ l.toNat → l.toNat ≤ 15 →
    Answers (.build { f with headerLengthWords := 5 }) s (.ok out) →
    ∃ out', Answers (.build { f with headerLengthWords := l }) s (.ok out') ∧ out'.length = out.length ∧
      out'[0]? = some (0x40 ||| l) ∧ 0x46 ≤ (0x40 ||| l).toNat ∧ (0x40 ||| l).toNat ≤ 0x4F ∧
      Answers (.csum (((out'.take 20).set 10 0).set 11 0)) s (.result (getChecksum out')) ∧
      out'.drop 20 = f.payload ∧
      (∀ k, k ≠ 0 → k ≠ 10 → k ≠ 11 → out'[k]? = out[k]?)

/-- BUILD.DEF (40_header_builder.md R86): the BUILD with each operand that is not overridden at its default; with no override it
fails only when the payload is longer than 65515, and otherwise its header is the document's. -/
def Obligations.BuildDefFillsDefaults : Prop :=
  ∀ (o : Overrides) (dst : Ipv4Addr) (payload : List Byte) (s : State), s.busy = false →
    (∃ t u, exec (.buildDef o dst payload) s = .next t ∧
      exec (.build { version := o.version.getD 4, headerLengthWords := o.headerLengthWords.getD 5,
                     typeOfService := o.typeOfService.getD 0, identification := o.identification.getD 0,
                     flags := o.flags.getD 0, fragmentOffset := o.fragmentOffset.getD 0,
                     timeToLive := o.timeToLive.getD 50, protocol := o.protocol.getD 6,
                     source := o.source.getD ⟨0x7F, 0x00, 0x00, 0x01⟩, destination := dst, payload := payload }) s =
        .next u ∧ t = u) ∧
    (payload.length > 65515 → Answers (.buildDef {} dst payload) s .invalidField) ∧
    (payload.length ≤ 65515 → ∃ t ck : Word, t.toNat = 20 + payload.length ∧
      Answers (.buildDef {} dst payload) s (.ok (([0x45, 0x00, (t >>> 8).setWidth 8, t.setWidth 8, 0x00, 0x00, 0x00, 0x00, 0x32,
        0x06, (ck >>> 8).setWidth 8, ck.setWidth 8, 0x7F, 0x00, 0x00, 0x01, dst.o0, dst.o1, dst.o2, dst.o3] :
        List Byte) ++ payload)) ∧
      Answers (.csum ([0x45, 0x00, (t >>> 8).setWidth 8, t.setWidth 8, 0x00, 0x00, 0x00, 0x00, 0x32, 0x06, 0x00, 0x00, 0x7F, 0x00,
        0x00, 0x01, dst.o0, dst.o1, dst.o2, dst.o3])) s (.result ck))

/-! Between operations. -/

/-- Nothing an operation leaves in the block can be observed by a later one (10_state.md R19): two idle states that differ only
in the block's registers answer every instruction alike, and are idle and look alike afterwards, so that the next instruction
finds what this one found. -/
def Obligations.ResponsesIgnoreWorkingRegisters : Prop :=
  ∀ (i : Instr) (s s' : State), s.busy = false → s'.busy = false → hostView s = hostView s' →
    ∃ t t', exec i s = .next t ∧ exec i s' = .next t' ∧ t.busy = false ∧ t'.busy = false ∧ hostView t = hostView t'

/-- A request presented while the block is busy is not lost and not merged: the operation in progress gets its response, and the
request is taken then (10_state.md R20). -/
def Obligations.BusyRequestIsTakenAfterwards : Prop :=
  ∀ (i : Instr) (s : State), MachineInv s → s.busy = true →
    ∃ u, finish s = .next u ∧ u.busy = false ∧ u.delivered = answerTo (requestInProgress s) :: s.delivered ∧
      u.pending = s.pending ∧ exec i s = exec i u

/-- After reset the block is idle, no response is pending, and the first request presented is accepted and answered
(70_reset_and_hazards.md R140). -/
def Obligations.ResetAcceptsFirstRequest : Prop :=
  State.reset.busy = false ∧ State.reset.status = none ∧ State.reset.out = none ∧ State.reset.result = none ∧
  (∀ r : Request, (instrOf r).wf = true →
    ∃ t, step (present (encode (instrOf r)) State.reset) = .next t ∧ t.delivered = [answerTo r] ∧ t.busy = false)

/-- A reset any number of micro-steps into an operation discards it: no response is delivered, nothing stays pending, the block is
idle; the same request repeated gives what it would have given (70_reset_and_hazards.md R141). That the host's waiting requests
are kept is the model's choice (log 15). -/
def Obligations.ResetDiscardsOperation : Prop :=
  ∀ (r : Request) (s m : State) (n : Nat), s.busy = false → run n (accept r s) = .next m → m.busy = true →
    (applyReset m).delivered = s.delivered ∧ (applyReset m).busy = false ∧ (applyReset m).status = none ∧
    (applyReset m).out = none ∧ (applyReset m).result = none ∧ (applyReset m).channel = s.channel ∧
    (∃ t u, exec (instrOf r) (applyReset m) = .next t ∧ exec (instrOf r) s = .next u ∧ t.delivered = u.delivered)

/-! GENSEQ and the channel. -/

/-- GENSEQ with no failing call: twelve packets built, delivered and written whole, in order, each with its defaults and 2 + 2k
payload bytes; no InvalidField; the sequence completed (42_generation_sequence.md R110, R111, R114, R116, R118). -/
def Obligations.GenseqWritesTwelvePackets : Prop :=
  ∀ (dst : Ipv4Addr) (s : State), s.busy = false → s.channel.peer = some dst →
    (∀ j, j < 12 → s.channel.writes + j ∉ s.channel.failWrites) →
    ∃ t, exec .genseq s = .next t ∧ t.seqEnd = some .completed ∧
      t.channel.sent = s.channel.sent ++ (List.range 12).map (genPacket dst) ∧ t.channel.writes = s.channel.writes + 12 ∧
      t.delivered = ((List.range 12).map fun k => Response.ok (genPacket dst k)).reverse ++ s.delivered ∧ t.busy = false

/-- The lengths (42_generation_sequence.md R112): what GENSEQ adds to the channel's stream is 396 bytes; packet k is 22 + 2k bytes
long and says so; for 127.0.0.1 and 192.0.2.1 the checksums go down by two from 0x8AE0 and 0x47E0. -/
def Obligations.GenseqLengthsAndChecksums : Prop :=
  (∀ (dst : Ipv4Addr) (s t : State), s.busy = false → s.channel.peer = some dst →
    (∀ j, j < 12 → s.channel.writes + j ∉ s.channel.failWrites) → exec .genseq s = .next t →
    t.channel.stream.length = s.channel.stream.length + 396 ∧
    (∀ k, k < 12 → ∃ p, t.channel.sent[s.channel.sent.length + k]? = some p ∧ p.length = 22 + 2 * k ∧
      (getTotalLength p).toNat = 22 + 2 * k ∧
      (dst = ⟨127, 0, 0, 1⟩ → (getChecksum p).toNat = 0x8AE0 - 2 * k) ∧
      (dst = ⟨192, 0, 2, 1⟩ → (getChecksum p).toNat = 0x47E0 - 2 * k)))

/-- A failing write ends GENSEQ where it happens: the packets before it were written, that one and the later ones were not, there
is no retry, and the block is idle (42_generation_sequence.md R117). -/
def Obligations.GenseqStopsAtFailedWrite : Prop :=
  ∀ (dst : Ipv4Addr) (j : Nat) (s : State), s.busy = false → s.channel.peer = some dst → j < 12 →
    s.channel.writes + j ∈ s.channel.failWrites → (∀ i, i < j → s.channel.writes + i ∉ s.channel.failWrites) →
    ∃ t, exec .genseq s = .next t ∧ t.seqEnd = some .channelFailure ∧
      t.channel.sent = s.channel.sent ++ (List.range j).map (genPacket dst) ∧
      t.channel.writes = s.channel.writes + j + 1 ∧
      t.delivered = ((List.range (j + 1)).map fun k => Response.ok (genPacket dst k)).reverse ++ s.delivered ∧ t.busy = false

/-- When peerAddress() raises ChannelFailure no packet is built and none is written (60_exceptions.md R123,
42_generation_sequence.md R113). -/
def Obligations.GenseqWithoutPeer : Prop :=
  ∀ s : State, s.busy = false → s.channel.peer = none → exec .genseq s = .next { s with seqEnd := some .channelFailure }

/-- What GENSEQ leaves unchanged, whether its calls fail or not: the waiting requests, the verdict, the channel's peer, which of
its calls fail and all that was read; packets written before stay written, and no response is left pending
(42_generation_sequence.md R110, R113, R115). -/
def Obligations.GenseqFrame : Prop :=
  ∀ s t : State, MachineInv s → s.busy = false → exec .genseq s = .next t →
    t.busy = false ∧ t.status = none ∧ t.out = none ∧ t.result = none ∧ t.pending = s.pending ∧ t.verdict = s.verdict ∧
    t.channel.peer = s.channel.peer ∧ t.channel.failWrites = s.channel.failWrites ∧ t.channel.reads = s.channel.reads ∧
    t.channel.failReads = s.channel.failReads ∧ t.channel.received = s.channel.received ∧
    (∃ packets, t.channel.sent = s.channel.sent ++ packets) ∧ (∃ responses, t.delivered = responses ++ s.delivered)

/-- A read() changes what was read and the number of reads and nothing else, and whatever was read changes no later request:
not the packets, not their number, not the responses, not a verdict (42_generation_sequence.md R115). -/
def Obligations.ReadsChangeNoLaterRequest : Prop :=
  (∀ s : State, ∃ received, hostRead s =
    { s with channel := { s.channel with received := received, reads := s.channel.reads + 1 } }) ∧
  (∀ (i : Instr) (s s' : State) (received : List (List Byte)) (reads : Nat) (failReads : List Nat), s.busy = false →
    s' = { s with channel := { s.channel with received := received, reads := reads, failReads := failReads } } →
    ∃ t t', exec i s = .next t ∧ exec i s' = .next t' ∧ t'.delivered = t.delivered ∧ t'.channel.sent = t.channel.sent ∧
      t'.channel.writes = t.channel.writes ∧ t'.seqEnd = t.seqEnd ∧ t'.verdict = t.verdict ∧
      t'.channel.received = received ∧ t.channel.received = s.channel.received)

/-- The response to a request of the block is a function of its operands alone, whatever the idle state it meets
(10_state.md R19, 20_memory.md R40 b). -/
def Obligations.ResponseIsFunctionOfOperands : Prop :=
  ∀ r : Request, ∃ response, ∀ s : State, s.busy = false →
    ∃ t, exec (instrOf r) s = .next t ∧ t.delivered = response :: s.delivered
end

