-- ==== Sys2Proof/Laws/Bytes.lean ====
section
/-! SUPPORT. Laws of the byte-order and bit-field helpers. -/

namespace Sys2Proof

theorem word_toNat (hi lo : Byte) : (word hi lo).toNat = hi.toNat * 256 + lo.toNat := by
  have h := hi.isLt
  have l := lo.isLt
  have hs : hi.toNat <<< 8 < 2 ^ 16 := by rw [Nat.shiftLeft_eq]; omega
  simp only [word, BitVec.toNat_or, BitVec.toNat_shiftLeft, BitVec.toNat_setWidth]
  rw [Nat.mod_eq_of_lt (by omega : hi.toNat < 2 ^ 16), Nat.mod_eq_of_lt hs, Nat.mod_eq_of_lt (by omega : lo.toNat < 2 ^ 16),
    ← Nat.shiftLeft_add_eq_or_of_lt l, Nat.shiftLeft_eq]

theorem hiByte_toNat (v : Word) : (hiByte v).toNat = v.toNat / 256 := by
  have h := v.isLt
  simp [hiByte, Nat.shiftRight_eq_div_pow]
  omega

theorem loByte_toNat (v : Word) : (loByte v).toNat = v.toNat % 256 := by
  simp [loByte]

@[simp] theorem word_hiByte_loByte (v : Word) : word (hiByte v) (loByte v) = v := by
  apply BitVec.eq_of_toNat_eq
  rw [word_toNat, hiByte_toNat, loByte_toNat]
  omega

@[simp] theorem hiByte_word (hi lo : Byte) : hiByte (word hi lo) = hi := by
  apply BitVec.eq_of_toNat_eq
  rw [hiByte_toNat, word_toNat]
  have := lo.isLt
  omega

@[simp] theorem loByte_word (hi lo : Byte) : loByte (word hi lo) = lo := by
  apply BitVec.eq_of_toNat_eq
  rw [loByte_toNat, word_toNat]
  have := lo.isLt
  omega

theorem flagsFragment_toNat (flags : BitVec 3) (frag : BitVec 13) :
    (flagsFragment flags frag).toNat = flags.toNat * 8192 + frag.toNat := by
  have h := flags.isLt
  have l := frag.isLt
  have hs : flags.toNat <<< 13 < 2 ^ 16 := by rw [Nat.shiftLeft_eq]; omega
  simp only [flagsFragment, BitVec.toNat_or, BitVec.toNat_shiftLeft, BitVec.toNat_setWidth]
  rw [Nat.mod_eq_of_lt (by omega : flags.toNat < 2 ^ 16), Nat.mod_eq_of_lt hs,
    Nat.mod_eq_of_lt (by omega : frag.toNat < 2 ^ 16), ← Nat.shiftLeft_add_eq_or_of_lt l, Nat.shiftLeft_eq]

@[simp] theorem flagsOf_flagsFragment (flags : BitVec 3) (frag : BitVec 13) : flagsOf (flagsFragment flags frag) = flags := by
  apply BitVec.eq_of_toNat_eq
  have h := flags.isLt
  have l := frag.isLt
  simp [flagsOf, Nat.shiftRight_eq_div_pow, flagsFragment_toNat]
  omega

@[simp] theorem fragmentOf_flagsFragment (flags : BitVec 3) (frag : BitVec 13) :
    fragmentOf (flagsFragment flags frag) = frag := by
  apply BitVec.eq_of_toNat_eq
  have h := flags.isLt
  have l := frag.isLt
  simp [fragmentOf, flagsFragment_toNat]
  omega

@[simp] theorem flagsFragment_flagsOf_fragmentOf (v : Word) : flagsFragment (flagsOf v) (fragmentOf v) = v := by
  apply BitVec.eq_of_toNat_eq
  have h := v.isLt
  rw [flagsFragment_toNat]
  simp [flagsOf, fragmentOf, Nat.shiftRight_eq_div_pow]
  omega

theorem nat32_be32 (n : Nat) (h : n < 2 ^ 32) :
    nat32 (BitVec.ofNat 8 (n / 2 ^ 24)) (BitVec.ofNat 8 (n / 2 ^ 16)) (BitVec.ofNat 8 (n / 2 ^ 8)) (BitVec.ofNat 8 n) = n := by
  simp [nat32]
  omega

theorem be32_nat32 (a b c d : Byte) : be32 (nat32 a b c d) = [a, b, c, d] := by
  have ha := a.isLt
  have hb := b.isLt
  have hc := c.isLt
  have hd := d.isLt
  simp only [be32, nat32, List.cons.injEq, and_true]
  refine ⟨?_, ?_, ?_, ?_⟩ <;> apply BitVec.eq_of_toNat_eq <;> simp <;> omega

theorem nat32_lt (a b c d : Byte) : nat32 a b c d < 2 ^ 32 := by
  have ha := a.isLt
  have hb := b.isLt
  have hc := c.isLt
  have hd := d.isLt
  simp only [nat32]
  omega

end Sys2Proof
end

