-- ==== Sys2Proof/Laws/Checksum.lean ====
section
/-! SUPPORT. Arithmetic of CK: the fold, the word sum, the complement (41_checksum.md R96, R99, R101). -/

namespace Sys2Proof.Machine

theorem foldPass_eq (a : Nat) : foldPass a = a % 65536 + a / 65536 := by
  have h : a &&& 65535 = a % 65536 := Nat.and_two_pow_sub_one_eq_mod a 16
  simp [foldPass, lowPart, carry, accMask, h, Nat.shiftRight_eq_div_pow]

/-- A pass keeps the residue modulo 65535 and the positivity (R96, R100). -/
theorem foldStar_foldPass (a : Nat) : foldStar (foldPass a) = foldStar a := by
  rw [foldPass_eq]
  unfold foldStar
  split <;> split <;> omega

/-- A fold pass in the middle of the additions changes nothing (R100). -/
theorem foldStar_foldPass_add (a b : Nat) : foldStar (foldPass a + b) = foldStar (a + b) := by
  rw [foldPass_eq]
  simp only [foldStar]
  split <;> split <;> omega

theorem foldStar_of_le {a : Nat} (h : a ≤ 65535) : foldStar a = a := by
  unfold foldStar
  split <;> omega

theorem foldStar_le (S : Nat) : foldStar S ≤ 65535 := by
  unfold foldStar
  split <;> omega

/-- A pass over a value above 0xFFFF takes at least one multiple of 65535 off it (R99). -/
theorem foldPass_div_lt {a : Nat} (h : a > accMask) : foldPass a / 65535 < a / 65535 := by
  rw [foldPass_eq]
  simp only [accMask] at h
  omega

theorem complement16_eq {a : Nat} (h : a ≤ 65535) : complement16 a = BitVec.ofNat 16 (65535 - a) := by
  apply BitVec.eq_of_toNat_eq
  simp only [complement16, BitVec.toNat_not, BitVec.toNat_ofNat]
  omega

theorem checksumOf_toNat (bytes : List Byte) : (checksumOf bytes).toNat = 65535 - foldStar (wordSum bytes) := by
  simp only [checksumOf, BitVec.toNat_ofNat]
  omega

/-- S(s ++ t) = S(s) + S(t) for s of even length (R101 c). -/
theorem wordSum_append (s t : List Byte) (h : s.length % 2 = 0) : wordSum (s ++ t) = wordSum s + wordSum t := by
  induction s using wordSum.induct with
  | case1 hi lo r ih =>
    have : r.length % 2 = 0 := by simp only [List.length_cons] at h; omega
    simp [wordSum, ih this, Nat.add_assoc]
  | case2 b => simp at h
  | case3 => simp [wordSum]

theorem wordSum_take_pair (l : List Byte) (i : Nat) (he : i % 2 = 0) (h : i + 1 < l.length) :
    wordSum (l.take (i + 2)) = wordSum (l.take i) + (word l[i] l[i + 1]).toNat := by
  have ht : l.take (i + 2) = l.take i ++ [l[i], l[i + 1]] := by
    rw [List.take_succ_eq_append_getElem (by omega), List.take_succ_eq_append_getElem (by omega), List.append_assoc]
    rfl
  rw [ht, wordSum_append _ _ (by rw [List.length_take]; omega)]
  simp [wordSum]

theorem wordSum_odd_tail (l : List Byte) (i : Nat) (he : i % 2 = 0) (h : i + 1 = l.length) :
    wordSum l = wordSum (l.take i) + (word (l[i]'(by omega)) 0).toNat := by
  have ht : l = l.take i ++ [l[i]'(by omega)] := by
    rw [← List.take_succ_eq_append_getElem (by omega), h, List.take_length]
  conv_lhs => rw [ht]
  rw [wordSum_append _ _ (by rw [List.length_take]; omega)]
  simp [wordSum]

/-- The sum as R96 writes it is the sum pair by pair. -/
theorem exactWordSum_eq (bytes : List Byte) : exactWordSum bytes = wordSum bytes := by
  induction bytes using wordSum.induct with
  | case1 hi lo r ih =>
    have hd : (r.length + 1 + 1) / 2 = r.length / 2 + 1 := by omega
    have hm : (r.length + 1 + 1) % 2 = r.length % 2 := by omega
    simp only [exactWordSum, List.length_cons, hd, hm, Finset.sum_range_succ'] at ih ⊢
    have hj : ∀ j, (hi :: lo :: r).getD (2 * (j + 1)) 0 = r.getD (2 * j) 0 ∧
        (hi :: lo :: r).getD (2 * (j + 1) + 1) 0 = r.getD (2 * j + 1) 0 := by
      intro j
      have e : 2 * (j + 1) = 2 * j + 1 + 1 := by omega
      rw [e]
      simp
    have hlast : r.length % 2 = 1 → (hi :: lo :: r).getD (r.length + 1 + 1 - 1) 0 = r.getD (r.length - 1) 0 := by
      intro ho
      have e : r.length + 1 + 1 - 1 = (r.length - 1) + 1 + 1 := by omega
      rw [e]
      simp
    have h0 : (hi :: lo :: r).getD (2 * 0) 0 = hi ∧ (hi :: lo :: r).getD (2 * 0 + 1) 0 = lo := ⟨rfl, rfl⟩
    simp only [(hj _).1, (hj _).2, h0.1, h0.2, wordSum, word_toNat, ← ih]
    by_cases ho : r.length % 2 = 1
    · rw [if_pos ho, if_pos ho, hlast ho]
      omega
    · rw [if_neg ho, if_neg ho]
      omega
  | case2 b => simp [exactWordSum, wordSum, word_toNat]
  | case3 => simp [exactWordSum, wordSum]

theorem word_toNat_le (hi lo : Byte) : (word hi lo).toNat ≤ 65535 := by
  have := (word hi lo).isLt
  omega

end Sys2Proof.Machine
end

