-- ==== Sys2Proof/Laws/State.lean ====
section
/-! SUPPORT. What each named update leaves in each field of State: one lemma per field per update. -/

namespace Sys2Proof.Machine

variable (s : State)

/-! `writeByte` -/

@[simp] theorem writeByte_busy (k : Nat) (v : Byte) : (writeByte k v s).busy = s.busy := rfl
@[simp] theorem writeByte_pending (k : Nat) (v : Byte) : (writeByte k v s).pending = s.pending := rfl
@[simp] theorem writeByte_op (k : Nat) (v : Byte) : (writeByte k v s).op = s.op := rfl
@[simp] theorem writeByte_operands (k : Nat) (v : Byte) : (writeByte k v s).operands = s.operands := rfl
@[simp] theorem writeByte_totalLength (k : Nat) (v : Byte) : (writeByte k v s).totalLength = s.totalLength := rfl
@[simp] theorem writeByte_headerChecksum (k : Nat) (v : Byte) : (writeByte k v s).headerChecksum = s.headerChecksum := rfl
@[simp] theorem writeByte_hbStep (k : Nat) (v : Byte) : (writeByte k v s).hbStep = s.hbStep := rfl
@[simp] theorem writeByte_hbuf (k : Nat) (v : Byte) : (writeByte k v s).hbuf = s.hbuf.setIfInBounds k v := rfl
@[simp] theorem writeByte_input (k : Nat) (v : Byte) : (writeByte k v s).input = s.input := rfl
@[simp] theorem writeByte_ckPhase (k : Nat) (v : Byte) : (writeByte k v s).ckPhase = s.ckPhase := rfl
@[simp] theorem writeByte_ckI (k : Nat) (v : Byte) : (writeByte k v s).ckI = s.ckI := rfl
@[simp] theorem writeByte_acc (k : Nat) (v : Byte) : (writeByte k v s).acc = s.acc := rfl
@[simp] theorem writeByte_written (k : Nat) (v : Byte) : (writeByte k v s).written =
    { s.written with hbuf := s.written.hbuf.setIfInBounds k true } := rfl
@[simp] theorem writeByte_status (k : Nat) (v : Byte) : (writeByte k v s).status = s.status := rfl
@[simp] theorem writeByte_out (k : Nat) (v : Byte) : (writeByte k v s).out = s.out := rfl
@[simp] theorem writeByte_result (k : Nat) (v : Byte) : (writeByte k v s).result = s.result := rfl
@[simp] theorem writeByte_delivered (k : Nat) (v : Byte) : (writeByte k v s).delivered = s.delivered := rfl
@[simp] theorem writeByte_verdict (k : Nat) (v : Byte) : (writeByte k v s).verdict = s.verdict := rfl
@[simp] theorem writeByte_seqEnd (k : Nat) (v : Byte) : (writeByte k v s).seqEnd = s.seqEnd := rfl
@[simp] theorem writeByte_channel (k : Nat) (v : Byte) : (writeByte k v s).channel = s.channel := rfl

/-! `writeWord` -/

@[simp] theorem writeWord_busy (k : Nat) (v : Word) : (writeWord k v s).busy = s.busy := rfl
@[simp] theorem writeWord_pending (k : Nat) (v : Word) : (writeWord k v s).pending = s.pending := rfl
@[simp] theorem writeWord_op (k : Nat) (v : Word) : (writeWord k v s).op = s.op := rfl
@[simp] theorem writeWord_operands (k : Nat) (v : Word) : (writeWord k v s).operands = s.operands := rfl
@[simp] theorem writeWord_totalLength (k : Nat) (v : Word) : (writeWord k v s).totalLength = s.totalLength := rfl
@[simp] theorem writeWord_headerChecksum (k : Nat) (v : Word) : (writeWord k v s).headerChecksum = s.headerChecksum := rfl
@[simp] theorem writeWord_hbStep (k : Nat) (v : Word) : (writeWord k v s).hbStep = s.hbStep := rfl
@[simp] theorem writeWord_hbuf (k : Nat) (v : Word) : (writeWord k v s).hbuf =
    (s.hbuf.setIfInBounds k (hiByte v)).setIfInBounds (k + 1) (loByte v) := rfl
@[simp] theorem writeWord_input (k : Nat) (v : Word) : (writeWord k v s).input = s.input := rfl
@[simp] theorem writeWord_ckPhase (k : Nat) (v : Word) : (writeWord k v s).ckPhase = s.ckPhase := rfl
@[simp] theorem writeWord_ckI (k : Nat) (v : Word) : (writeWord k v s).ckI = s.ckI := rfl
@[simp] theorem writeWord_acc (k : Nat) (v : Word) : (writeWord k v s).acc = s.acc := rfl
@[simp] theorem writeWord_written (k : Nat) (v : Word) : (writeWord k v s).written =
    { s.written with hbuf := (s.written.hbuf.setIfInBounds k true).setIfInBounds (k + 1) true } := rfl
@[simp] theorem writeWord_status (k : Nat) (v : Word) : (writeWord k v s).status = s.status := rfl
@[simp] theorem writeWord_out (k : Nat) (v : Word) : (writeWord k v s).out = s.out := rfl
@[simp] theorem writeWord_result (k : Nat) (v : Word) : (writeWord k v s).result = s.result := rfl
@[simp] theorem writeWord_delivered (k : Nat) (v : Word) : (writeWord k v s).delivered = s.delivered := rfl
@[simp] theorem writeWord_verdict (k : Nat) (v : Word) : (writeWord k v s).verdict = s.verdict := rfl
@[simp] theorem writeWord_seqEnd (k : Nat) (v : Word) : (writeWord k v s).seqEnd = s.seqEnd := rfl
@[simp] theorem writeWord_channel (k : Nat) (v : Word) : (writeWord k v s).channel = s.channel := rfl

/-! `writeAddr` -/

@[simp] theorem writeAddr_busy (k : Nat) (a : Ipv4Addr) : (writeAddr k a s).busy = s.busy := rfl
@[simp] theorem writeAddr_pending (k : Nat) (a : Ipv4Addr) : (writeAddr k a s).pending = s.pending := rfl
@[simp] theorem writeAddr_op (k : Nat) (a : Ipv4Addr) : (writeAddr k a s).op = s.op := rfl
@[simp] theorem writeAddr_operands (k : Nat) (a : Ipv4Addr) : (writeAddr k a s).operands = s.operands := rfl
@[simp] theorem writeAddr_totalLength (k : Nat) (a : Ipv4Addr) : (writeAddr k a s).totalLength = s.totalLength := rfl
@[simp] theorem writeAddr_headerChecksum (k : Nat) (a : Ipv4Addr) : (writeAddr k a s).headerChecksum =
    s.headerChecksum := rfl
@[simp] theorem writeAddr_hbStep (k : Nat) (a : Ipv4Addr) : (writeAddr k a s).hbStep = s.hbStep := rfl
@[simp] theorem writeAddr_hbuf (k : Nat) (a : Ipv4Addr) : (writeAddr k a s).hbuf =
    (((s.hbuf.setIfInBounds k a.o0).setIfInBounds (k + 1) a.o1).setIfInBounds (k + 2) a.o2).setIfInBounds (k + 3) a.o3 := rfl
@[simp] theorem writeAddr_input (k : Nat) (a : Ipv4Addr) : (writeAddr k a s).input = s.input := rfl
@[simp] theorem writeAddr_ckPhase (k : Nat) (a : Ipv4Addr) : (writeAddr k a s).ckPhase = s.ckPhase := rfl
@[simp] theorem writeAddr_ckI (k : Nat) (a : Ipv4Addr) : (writeAddr k a s).ckI = s.ckI := rfl
@[simp] theorem writeAddr_acc (k : Nat) (a : Ipv4Addr) : (writeAddr k a s).acc = s.acc := rfl
@[simp] theorem writeAddr_written (k : Nat) (a : Ipv4Addr) : (writeAddr k a s).written =
    { s.written with hbuf := (((s.written.hbuf.setIfInBounds k true).setIfInBounds (k + 1) true).setIfInBounds (k + 2) true).setIfInBounds (k + 3) true } := rfl
@[simp] theorem writeAddr_status (k : Nat) (a : Ipv4Addr) : (writeAddr k a s).status = s.status := rfl
@[simp] theorem writeAddr_out (k : Nat) (a : Ipv4Addr) : (writeAddr k a s).out = s.out := rfl
@[simp] theorem writeAddr_result (k : Nat) (a : Ipv4Addr) : (writeAddr k a s).result = s.result := rfl
@[simp] theorem writeAddr_delivered (k : Nat) (a : Ipv4Addr) : (writeAddr k a s).delivered = s.delivered := rfl
@[simp] theorem writeAddr_verdict (k : Nat) (a : Ipv4Addr) : (writeAddr k a s).verdict = s.verdict := rfl
@[simp] theorem writeAddr_seqEnd (k : Nat) (a : Ipv4Addr) : (writeAddr k a s).seqEnd = s.seqEnd := rfl
@[simp] theorem writeAddr_channel (k : Nat) (a : Ipv4Addr) : (writeAddr k a s).channel = s.channel := rfl

/-! `writeAcc` -/

@[simp] theorem writeAcc_busy (v : Nat) : (writeAcc v s).busy = s.busy := rfl
@[simp] theorem writeAcc_pending (v : Nat) : (writeAcc v s).pending = s.pending := rfl
@[simp] theorem writeAcc_op (v : Nat) : (writeAcc v s).op = s.op := rfl
@[simp] theorem writeAcc_operands (v : Nat) : (writeAcc v s).operands = s.operands := rfl
@[simp] theorem writeAcc_totalLength (v : Nat) : (writeAcc v s).totalLength = s.totalLength := rfl
@[simp] theorem writeAcc_headerChecksum (v : Nat) : (writeAcc v s).headerChecksum = s.headerChecksum := rfl
@[simp] theorem writeAcc_hbStep (v : Nat) : (writeAcc v s).hbStep = s.hbStep := rfl
@[simp] theorem writeAcc_hbuf (v : Nat) : (writeAcc v s).hbuf = s.hbuf := rfl
@[simp] theorem writeAcc_input (v : Nat) : (writeAcc v s).input = s.input := rfl
@[simp] theorem writeAcc_ckPhase (v : Nat) : (writeAcc v s).ckPhase = s.ckPhase := rfl
@[simp] theorem writeAcc_ckI (v : Nat) : (writeAcc v s).ckI = s.ckI := rfl
@[simp] theorem writeAcc_acc (v : Nat) : (writeAcc v s).acc = v := rfl
@[simp] theorem writeAcc_written (v : Nat) : (writeAcc v s).written = { s.written with acc := true } := rfl
@[simp] theorem writeAcc_status (v : Nat) : (writeAcc v s).status = s.status := rfl
@[simp] theorem writeAcc_out (v : Nat) : (writeAcc v s).out = s.out := rfl
@[simp] theorem writeAcc_result (v : Nat) : (writeAcc v s).result = s.result := rfl
@[simp] theorem writeAcc_delivered (v : Nat) : (writeAcc v s).delivered = s.delivered := rfl
@[simp] theorem writeAcc_verdict (v : Nat) : (writeAcc v s).verdict = s.verdict := rfl
@[simp] theorem writeAcc_seqEnd (v : Nat) : (writeAcc v s).seqEnd = s.seqEnd := rfl
@[simp] theorem writeAcc_channel (v : Nat) : (writeAcc v s).channel = s.channel := rfl

/-! `writeTotalLength` -/

@[simp] theorem writeTotalLength_busy (v : Word) : (writeTotalLength v s).busy = s.busy := rfl
@[simp] theorem writeTotalLength_pending (v : Word) : (writeTotalLength v s).pending = s.pending := rfl
@[simp] theorem writeTotalLength_op (v : Word) : (writeTotalLength v s).op = s.op := rfl
@[simp] theorem writeTotalLength_operands (v : Word) : (writeTotalLength v s).operands = s.operands := rfl
@[simp] theorem writeTotalLength_totalLength (v : Word) : (writeTotalLength v s).totalLength = v := rfl
@[simp] theorem writeTotalLength_headerChecksum (v : Word) : (writeTotalLength v s).headerChecksum = s.headerChecksum := rfl
@[simp] theorem writeTotalLength_hbStep (v : Word) : (writeTotalLength v s).hbStep = s.hbStep := rfl
@[simp] theorem writeTotalLength_hbuf (v : Word) : (writeTotalLength v s).hbuf = s.hbuf := rfl
@[simp] theorem writeTotalLength_input (v : Word) : (writeTotalLength v s).input = s.input := rfl
@[simp] theorem writeTotalLength_ckPhase (v : Word) : (writeTotalLength v s).ckPhase = s.ckPhase := rfl
@[simp] theorem writeTotalLength_ckI (v : Word) : (writeTotalLength v s).ckI = s.ckI := rfl
@[simp] theorem writeTotalLength_acc (v : Word) : (writeTotalLength v s).acc = s.acc := rfl
@[simp] theorem writeTotalLength_written (v : Word) : (writeTotalLength v s).written =
    { s.written with totalLength := true } := rfl
@[simp] theorem writeTotalLength_status (v : Word) : (writeTotalLength v s).status = s.status := rfl
@[simp] theorem writeTotalLength_out (v : Word) : (writeTotalLength v s).out = s.out := rfl
@[simp] theorem writeTotalLength_result (v : Word) : (writeTotalLength v s).result = s.result := rfl
@[simp] theorem writeTotalLength_delivered (v : Word) : (writeTotalLength v s).delivered = s.delivered := rfl
@[simp] theorem writeTotalLength_verdict (v : Word) : (writeTotalLength v s).verdict = s.verdict := rfl
@[simp] theorem writeTotalLength_seqEnd (v : Word) : (writeTotalLength v s).seqEnd = s.seqEnd := rfl
@[simp] theorem writeTotalLength_channel (v : Word) : (writeTotalLength v s).channel = s.channel := rfl

/-! `writeInput` -/

@[simp] theorem writeInput_busy (bytes : List Byte) : (writeInput bytes s).busy = s.busy := rfl
@[simp] theorem writeInput_pending (bytes : List Byte) : (writeInput bytes s).pending = s.pending := rfl
@[simp] theorem writeInput_op (bytes : List Byte) : (writeInput bytes s).op = s.op := rfl
@[simp] theorem writeInput_operands (bytes : List Byte) : (writeInput bytes s).operands = s.operands := rfl
@[simp] theorem writeInput_totalLength (bytes : List Byte) : (writeInput bytes s).totalLength = s.totalLength := rfl
@[simp] theorem writeInput_headerChecksum (bytes : List Byte) : (writeInput bytes s).headerChecksum =
    s.headerChecksum := rfl
@[simp] theorem writeInput_hbStep (bytes : List Byte) : (writeInput bytes s).hbStep = s.hbStep := rfl
@[simp] theorem writeInput_hbuf (bytes : List Byte) : (writeInput bytes s).hbuf = s.hbuf := rfl
@[simp] theorem writeInput_input (bytes : List Byte) : (writeInput bytes s).input = bytes := rfl
@[simp] theorem writeInput_ckPhase (bytes : List Byte) : (writeInput bytes s).ckPhase = s.ckPhase := rfl
@[simp] theorem writeInput_ckI (bytes : List Byte) : (writeInput bytes s).ckI = s.ckI := rfl
@[simp] theorem writeInput_acc (bytes : List Byte) : (writeInput bytes s).acc = s.acc := rfl
@[simp] theorem writeInput_written (bytes : List Byte) : (writeInput bytes s).written =
    { s.written with input := true } := rfl
@[simp] theorem writeInput_status (bytes : List Byte) : (writeInput bytes s).status = s.status := rfl
@[simp] theorem writeInput_out (bytes : List Byte) : (writeInput bytes s).out = s.out := rfl
@[simp] theorem writeInput_result (bytes : List Byte) : (writeInput bytes s).result = s.result := rfl
@[simp] theorem writeInput_delivered (bytes : List Byte) : (writeInput bytes s).delivered = s.delivered := rfl
@[simp] theorem writeInput_verdict (bytes : List Byte) : (writeInput bytes s).verdict = s.verdict := rfl
@[simp] theorem writeInput_seqEnd (bytes : List Byte) : (writeInput bytes s).seqEnd = s.seqEnd := rfl
@[simp] theorem writeInput_channel (bytes : List Byte) : (writeInput bytes s).channel = s.channel := rfl

/-! `advance` -/

@[simp] theorem advance_busy : (advance s).busy = s.busy := rfl
@[simp] theorem advance_pending : (advance s).pending = s.pending := rfl
@[simp] theorem advance_op : (advance s).op = s.op := rfl
@[simp] theorem advance_operands : (advance s).operands = s.operands := rfl
@[simp] theorem advance_totalLength : (advance s).totalLength = s.totalLength := rfl
@[simp] theorem advance_headerChecksum : (advance s).headerChecksum = s.headerChecksum := rfl
@[simp] theorem advance_hbStep : (advance s).hbStep = s.hbStep.next := rfl
@[simp] theorem advance_hbuf : (advance s).hbuf = s.hbuf := rfl
@[simp] theorem advance_input : (advance s).input = s.input := rfl
@[simp] theorem advance_ckPhase : (advance s).ckPhase = s.ckPhase := rfl
@[simp] theorem advance_ckI : (advance s).ckI = s.ckI := rfl
@[simp] theorem advance_acc : (advance s).acc = s.acc := rfl
@[simp] theorem advance_written : (advance s).written = s.written := rfl
@[simp] theorem advance_status : (advance s).status = s.status := rfl
@[simp] theorem advance_out : (advance s).out = s.out := rfl
@[simp] theorem advance_result : (advance s).result = s.result := rfl
@[simp] theorem advance_delivered : (advance s).delivered = s.delivered := rfl
@[simp] theorem advance_verdict : (advance s).verdict = s.verdict := rfl
@[simp] theorem advance_seqEnd : (advance s).seqEnd = s.seqEnd := rfl
@[simp] theorem advance_channel : (advance s).channel = s.channel := rfl

/-! `raiseInvalidField` -/

@[simp] theorem raiseInvalidField_busy : (raiseInvalidField s).busy = s.busy := rfl
@[simp] theorem raiseInvalidField_pending : (raiseInvalidField s).pending = s.pending := rfl
@[simp] theorem raiseInvalidField_op : (raiseInvalidField s).op = s.op := rfl
@[simp] theorem raiseInvalidField_operands : (raiseInvalidField s).operands = s.operands := rfl
@[simp] theorem raiseInvalidField_totalLength : (raiseInvalidField s).totalLength = s.totalLength := rfl
@[simp] theorem raiseInvalidField_headerChecksum : (raiseInvalidField s).headerChecksum = s.headerChecksum := rfl
@[simp] theorem raiseInvalidField_hbStep : (raiseInvalidField s).hbStep = s.hbStep := rfl
@[simp] theorem raiseInvalidField_hbuf : (raiseInvalidField s).hbuf = s.hbuf := rfl
@[simp] theorem raiseInvalidField_input : (raiseInvalidField s).input = s.input := rfl
@[simp] theorem raiseInvalidField_ckPhase : (raiseInvalidField s).ckPhase = s.ckPhase := rfl
@[simp] theorem raiseInvalidField_ckI : (raiseInvalidField s).ckI = s.ckI := rfl
@[simp] theorem raiseInvalidField_acc : (raiseInvalidField s).acc = s.acc := rfl
@[simp] theorem raiseInvalidField_written : (raiseInvalidField s).written = s.written := rfl
@[simp] theorem raiseInvalidField_status : (raiseInvalidField s).status = some .invalidField := rfl
@[simp] theorem raiseInvalidField_out : (raiseInvalidField s).out = s.out := rfl
@[simp] theorem raiseInvalidField_result : (raiseInvalidField s).result = s.result := rfl
@[simp] theorem raiseInvalidField_delivered : (raiseInvalidField s).delivered = s.delivered := rfl
@[simp] theorem raiseInvalidField_verdict : (raiseInvalidField s).verdict = s.verdict := rfl
@[simp] theorem raiseInvalidField_seqEnd : (raiseInvalidField s).seqEnd = s.seqEnd := rfl
@[simp] theorem raiseInvalidField_channel : (raiseInvalidField s).channel = s.channel := rfl

/-! `deliver` -/

@[simp] theorem deliver_busy (r : Response) : (deliver r s).busy = false := rfl
@[simp] theorem deliver_pending (r : Response) : (deliver r s).pending = s.pending := rfl
@[simp] theorem deliver_op (r : Response) : (deliver r s).op = s.op := rfl
@[simp] theorem deliver_operands (r : Response) : (deliver r s).operands = s.operands := rfl
@[simp] theorem deliver_totalLength (r : Response) : (deliver r s).totalLength = s.totalLength := rfl
@[simp] theorem deliver_headerChecksum (r : Response) : (deliver r s).headerChecksum = s.headerChecksum := rfl
@[simp] theorem deliver_hbStep (r : Response) : (deliver r s).hbStep = s.hbStep := rfl
@[simp] theorem deliver_hbuf (r : Response) : (deliver r s).hbuf = s.hbuf := rfl
@[simp] theorem deliver_input (r : Response) : (deliver r s).input = s.input := rfl
@[simp] theorem deliver_ckPhase (r : Response) : (deliver r s).ckPhase = s.ckPhase := rfl
@[simp] theorem deliver_ckI (r : Response) : (deliver r s).ckI = s.ckI := rfl
@[simp] theorem deliver_acc (r : Response) : (deliver r s).acc = s.acc := rfl
@[simp] theorem deliver_written (r : Response) : (deliver r s).written = s.written := rfl
@[simp] theorem deliver_status (r : Response) : (deliver r s).status = none := rfl
@[simp] theorem deliver_out (r : Response) : (deliver r s).out = none := rfl
@[simp] theorem deliver_result (r : Response) : (deliver r s).result = none := rfl
@[simp] theorem deliver_delivered (r : Response) : (deliver r s).delivered = r :: s.delivered := rfl
@[simp] theorem deliver_verdict (r : Response) : (deliver r s).verdict = s.verdict := rfl
@[simp] theorem deliver_seqEnd (r : Response) : (deliver r s).seqEnd = s.seqEnd := rfl
@[simp] theorem deliver_channel (r : Response) : (deliver r s).channel = s.channel := rfl

/-! `present` -/

@[simp] theorem present_busy (record : List Byte) : (present record s).busy = s.busy := rfl
@[simp] theorem present_pending (record : List Byte) : (present record s).pending = s.pending ++ [record] := rfl
@[simp] theorem present_op (record : List Byte) : (present record s).op = s.op := rfl
@[simp] theorem present_operands (record : List Byte) : (present record s).operands = s.operands := rfl
@[simp] theorem present_totalLength (record : List Byte) : (present record s).totalLength = s.totalLength := rfl
@[simp] theorem present_headerChecksum (record : List Byte) : (present record s).headerChecksum = s.headerChecksum := rfl
@[simp] theorem present_hbStep (record : List Byte) : (present record s).hbStep = s.hbStep := rfl
@[simp] theorem present_hbuf (record : List Byte) : (present record s).hbuf = s.hbuf := rfl
@[simp] theorem present_input (record : List Byte) : (present record s).input = s.input := rfl
@[simp] theorem present_ckPhase (record : List Byte) : (present record s).ckPhase = s.ckPhase := rfl
@[simp] theorem present_ckI (record : List Byte) : (present record s).ckI = s.ckI := rfl
@[simp] theorem present_acc (record : List Byte) : (present record s).acc = s.acc := rfl
@[simp] theorem present_written (record : List Byte) : (present record s).written = s.written := rfl
@[simp] theorem present_status (record : List Byte) : (present record s).status = s.status := rfl
@[simp] theorem present_out (record : List Byte) : (present record s).out = s.out := rfl
@[simp] theorem present_result (record : List Byte) : (present record s).result = s.result := rfl
@[simp] theorem present_delivered (record : List Byte) : (present record s).delivered = s.delivered := rfl
@[simp] theorem present_verdict (record : List Byte) : (present record s).verdict = s.verdict := rfl
@[simp] theorem present_seqEnd (record : List Byte) : (present record s).seqEnd = s.seqEnd := rfl
@[simp] theorem present_channel (record : List Byte) : (present record s).channel = s.channel := rfl

/-! `placeNext` -/

@[simp] theorem placeNext_busy (record : List Byte) : (placeNext record s).busy = s.busy := rfl
@[simp] theorem placeNext_pending (record : List Byte) : (placeNext record s).pending = record :: s.pending := rfl
@[simp] theorem placeNext_op (record : List Byte) : (placeNext record s).op = s.op := rfl
@[simp] theorem placeNext_operands (record : List Byte) : (placeNext record s).operands = s.operands := rfl
@[simp] theorem placeNext_totalLength (record : List Byte) : (placeNext record s).totalLength = s.totalLength := rfl
@[simp] theorem placeNext_headerChecksum (record : List Byte) : (placeNext record s).headerChecksum =
    s.headerChecksum := rfl
@[simp] theorem placeNext_hbStep (record : List Byte) : (placeNext record s).hbStep = s.hbStep := rfl
@[simp] theorem placeNext_hbuf (record : List Byte) : (placeNext record s).hbuf = s.hbuf := rfl
@[simp] theorem placeNext_input (record : List Byte) : (placeNext record s).input = s.input := rfl
@[simp] theorem placeNext_ckPhase (record : List Byte) : (placeNext record s).ckPhase = s.ckPhase := rfl
@[simp] theorem placeNext_ckI (record : List Byte) : (placeNext record s).ckI = s.ckI := rfl
@[simp] theorem placeNext_acc (record : List Byte) : (placeNext record s).acc = s.acc := rfl
@[simp] theorem placeNext_written (record : List Byte) : (placeNext record s).written = s.written := rfl
@[simp] theorem placeNext_status (record : List Byte) : (placeNext record s).status = s.status := rfl
@[simp] theorem placeNext_out (record : List Byte) : (placeNext record s).out = s.out := rfl
@[simp] theorem placeNext_result (record : List Byte) : (placeNext record s).result = s.result := rfl
@[simp] theorem placeNext_delivered (record : List Byte) : (placeNext record s).delivered = s.delivered := rfl
@[simp] theorem placeNext_verdict (record : List Byte) : (placeNext record s).verdict = s.verdict := rfl
@[simp] theorem placeNext_seqEnd (record : List Byte) : (placeNext record s).seqEnd = s.seqEnd := rfl
@[simp] theorem placeNext_channel (record : List Byte) : (placeNext record s).channel = s.channel := rfl

/-! `endSequence` -/

@[simp] theorem endSequence_busy (e : SeqEnd) : (endSequence e s).busy = s.busy := rfl
@[simp] theorem endSequence_pending (e : SeqEnd) : (endSequence e s).pending = s.pending := rfl
@[simp] theorem endSequence_op (e : SeqEnd) : (endSequence e s).op = s.op := rfl
@[simp] theorem endSequence_operands (e : SeqEnd) : (endSequence e s).operands = s.operands := rfl
@[simp] theorem endSequence_totalLength (e : SeqEnd) : (endSequence e s).totalLength = s.totalLength := rfl
@[simp] theorem endSequence_headerChecksum (e : SeqEnd) : (endSequence e s).headerChecksum = s.headerChecksum := rfl
@[simp] theorem endSequence_hbStep (e : SeqEnd) : (endSequence e s).hbStep = s.hbStep := rfl
@[simp] theorem endSequence_hbuf (e : SeqEnd) : (endSequence e s).hbuf = s.hbuf := rfl
@[simp] theorem endSequence_input (e : SeqEnd) : (endSequence e s).input = s.input := rfl
@[simp] theorem endSequence_ckPhase (e : SeqEnd) : (endSequence e s).ckPhase = s.ckPhase := rfl
@[simp] theorem endSequence_ckI (e : SeqEnd) : (endSequence e s).ckI = s.ckI := rfl
@[simp] theorem endSequence_acc (e : SeqEnd) : (endSequence e s).acc = s.acc := rfl
@[simp] theorem endSequence_written (e : SeqEnd) : (endSequence e s).written = s.written := rfl
@[simp] theorem endSequence_status (e : SeqEnd) : (endSequence e s).status = s.status := rfl
@[simp] theorem endSequence_out (e : SeqEnd) : (endSequence e s).out = s.out := rfl
@[simp] theorem endSequence_result (e : SeqEnd) : (endSequence e s).result = s.result := rfl
@[simp] theorem endSequence_delivered (e : SeqEnd) : (endSequence e s).delivered = s.delivered := rfl
@[simp] theorem endSequence_verdict (e : SeqEnd) : (endSequence e s).verdict = s.verdict := rfl
@[simp] theorem endSequence_seqEnd (e : SeqEnd) : (endSequence e s).seqEnd = some e := rfl
@[simp] theorem endSequence_channel (e : SeqEnd) : (endSequence e s).channel = s.channel := rfl

/-! `hostRead` -/

@[simp] theorem hostRead_busy : (hostRead s).busy = s.busy := rfl
@[simp] theorem hostRead_pending : (hostRead s).pending = s.pending := rfl
@[simp] theorem hostRead_op : (hostRead s).op = s.op := rfl
@[simp] theorem hostRead_operands : (hostRead s).operands = s.operands := rfl
@[simp] theorem hostRead_totalLength : (hostRead s).totalLength = s.totalLength := rfl
@[simp] theorem hostRead_headerChecksum : (hostRead s).headerChecksum = s.headerChecksum := rfl
@[simp] theorem hostRead_hbStep : (hostRead s).hbStep = s.hbStep := rfl
@[simp] theorem hostRead_hbuf : (hostRead s).hbuf = s.hbuf := rfl
@[simp] theorem hostRead_input : (hostRead s).input = s.input := rfl
@[simp] theorem hostRead_ckPhase : (hostRead s).ckPhase = s.ckPhase := rfl
@[simp] theorem hostRead_ckI : (hostRead s).ckI = s.ckI := rfl
@[simp] theorem hostRead_acc : (hostRead s).acc = s.acc := rfl
@[simp] theorem hostRead_written : (hostRead s).written = s.written := rfl
@[simp] theorem hostRead_status : (hostRead s).status = s.status := rfl
@[simp] theorem hostRead_out : (hostRead s).out = s.out := rfl
@[simp] theorem hostRead_result : (hostRead s).result = s.result := rfl
@[simp] theorem hostRead_delivered : (hostRead s).delivered = s.delivered := rfl
@[simp] theorem hostRead_verdict : (hostRead s).verdict = s.verdict := rfl
@[simp] theorem hostRead_seqEnd : (hostRead s).seqEnd = s.seqEnd := rfl
@[simp] theorem hostRead_channel : (hostRead s).channel = (channelRead s.channel).1 := rfl

/-! `accept` -/

@[simp] theorem accept_csum_busy (bytes : List Byte) : (accept (.csum bytes) s).busy = true := rfl
@[simp] theorem accept_csum_pending (bytes : List Byte) : (accept (.csum bytes) s).pending = s.pending := rfl
@[simp] theorem accept_csum_op (bytes : List Byte) : (accept (.csum bytes) s).op = .csum := rfl
@[simp] theorem accept_csum_operands (bytes : List Byte) : (accept (.csum bytes) s).operands = s.operands := rfl
@[simp] theorem accept_csum_totalLength (bytes : List Byte) : (accept (.csum bytes) s).totalLength = s.totalLength := rfl
@[simp] theorem accept_csum_headerChecksum (bytes : List Byte) : (accept (.csum bytes) s).headerChecksum =
    s.headerChecksum := rfl
@[simp] theorem accept_csum_hbStep (bytes : List Byte) : (accept (.csum bytes) s).hbStep = .validate := rfl
@[simp] theorem accept_csum_hbuf (bytes : List Byte) : (accept (.csum bytes) s).hbuf = s.hbuf := rfl
@[simp] theorem accept_csum_input (bytes : List Byte) : (accept (.csum bytes) s).input = bytes := rfl
@[simp] theorem accept_csum_ckPhase (bytes : List Byte) : (accept (.csum bytes) s).ckPhase = .init := rfl
@[simp] theorem accept_csum_ckI (bytes : List Byte) : (accept (.csum bytes) s).ckI = s.ckI := rfl
@[simp] theorem accept_csum_acc (bytes : List Byte) : (accept (.csum bytes) s).acc = s.acc := rfl
@[simp] theorem accept_csum_written (bytes : List Byte) : (accept (.csum bytes) s).written =
    { Written.none with input := true } := rfl
@[simp] theorem accept_csum_status (bytes : List Byte) : (accept (.csum bytes) s).status = none := rfl
@[simp] theorem accept_csum_out (bytes : List Byte) : (accept (.csum bytes) s).out = none := rfl
@[simp] theorem accept_csum_result (bytes : List Byte) : (accept (.csum bytes) s).result = none := rfl
@[simp] theorem accept_csum_delivered (bytes : List Byte) : (accept (.csum bytes) s).delivered = s.delivered := rfl
@[simp] theorem accept_csum_verdict (bytes : List Byte) : (accept (.csum bytes) s).verdict = s.verdict := rfl
@[simp] theorem accept_csum_seqEnd (bytes : List Byte) : (accept (.csum bytes) s).seqEnd = s.seqEnd := rfl
@[simp] theorem accept_csum_channel (bytes : List Byte) : (accept (.csum bytes) s).channel = s.channel := rfl

@[simp] theorem accept_build_busy (f : Fields) : (accept (.build f) s).busy = true := rfl
@[simp] theorem accept_build_pending (f : Fields) : (accept (.build f) s).pending = s.pending := rfl
@[simp] theorem accept_build_op (f : Fields) : (accept (.build f) s).op = .build := rfl
@[simp] theorem accept_build_operands (f : Fields) : (accept (.build f) s).operands = f := rfl
@[simp] theorem accept_build_totalLength (f : Fields) : (accept (.build f) s).totalLength = s.totalLength := rfl
@[simp] theorem accept_build_headerChecksum (f : Fields) : (accept (.build f) s).headerChecksum = s.headerChecksum := rfl
@[simp] theorem accept_build_hbStep (f : Fields) : (accept (.build f) s).hbStep = .validate := rfl
@[simp] theorem accept_build_hbuf (f : Fields) : (accept (.build f) s).hbuf = s.hbuf := rfl
@[simp] theorem accept_build_input (f : Fields) : (accept (.build f) s).input = s.input := rfl
@[simp] theorem accept_build_ckPhase (f : Fields) : (accept (.build f) s).ckPhase = .init := rfl
@[simp] theorem accept_build_ckI (f : Fields) : (accept (.build f) s).ckI = s.ckI := rfl
@[simp] theorem accept_build_acc (f : Fields) : (accept (.build f) s).acc = s.acc := rfl
@[simp] theorem accept_build_written (f : Fields) : (accept (.build f) s).written =
    { Written.none with operands := true } := rfl
@[simp] theorem accept_build_status (f : Fields) : (accept (.build f) s).status = none := rfl
@[simp] theorem accept_build_out (f : Fields) : (accept (.build f) s).out = none := rfl
@[simp] theorem accept_build_result (f : Fields) : (accept (.build f) s).result = none := rfl
@[simp] theorem accept_build_delivered (f : Fields) : (accept (.build f) s).delivered = s.delivered := rfl
@[simp] theorem accept_build_verdict (f : Fields) : (accept (.build f) s).verdict = s.verdict := rfl
@[simp] theorem accept_build_seqEnd (f : Fields) : (accept (.build f) s).seqEnd = s.seqEnd := rfl
@[simp] theorem accept_build_channel (f : Fields) : (accept (.build f) s).channel = s.channel := rfl

/-! `applyReset` -/

@[simp] theorem applyReset_busy : (applyReset s).busy = State.reset.busy := rfl
@[simp] theorem applyReset_pending : (applyReset s).pending = s.pending := rfl
@[simp] theorem applyReset_op : (applyReset s).op = State.reset.op := rfl
@[simp] theorem applyReset_operands : (applyReset s).operands = State.reset.operands := rfl
@[simp] theorem applyReset_totalLength : (applyReset s).totalLength = State.reset.totalLength := rfl
@[simp] theorem applyReset_headerChecksum : (applyReset s).headerChecksum = State.reset.headerChecksum := rfl
@[simp] theorem applyReset_hbStep : (applyReset s).hbStep = State.reset.hbStep := rfl
@[simp] theorem applyReset_hbuf : (applyReset s).hbuf = State.reset.hbuf := rfl
@[simp] theorem applyReset_input : (applyReset s).input = State.reset.input := rfl
@[simp] theorem applyReset_ckPhase : (applyReset s).ckPhase = State.reset.ckPhase := rfl
@[simp] theorem applyReset_ckI : (applyReset s).ckI = State.reset.ckI := rfl
@[simp] theorem applyReset_acc : (applyReset s).acc = State.reset.acc := rfl
@[simp] theorem applyReset_written : (applyReset s).written = State.reset.written := rfl
@[simp] theorem applyReset_status : (applyReset s).status = State.reset.status := rfl
@[simp] theorem applyReset_out : (applyReset s).out = State.reset.out := rfl
@[simp] theorem applyReset_result : (applyReset s).result = State.reset.result := rfl
@[simp] theorem applyReset_delivered : (applyReset s).delivered = s.delivered := rfl
@[simp] theorem applyReset_verdict : (applyReset s).verdict = s.verdict := rfl
@[simp] theorem applyReset_seqEnd : (applyReset s).seqEnd = s.seqEnd := rfl
@[simp] theorem applyReset_channel : (applyReset s).channel = s.channel := rfl

end Sys2Proof.Machine
end

