-- ==== Sys2Proof/Laws/CkTick.lean ====
section
/-! SUPPORT. What a step of CK can do: from a state that meets its invariant it answers a next state that meets it too, it
changes CK's own registers alone, and a measure falls. -/

namespace Sys2Proof.Machine

/-- How many steps of CK are left, at most, before the response is taken (R99, R107). -/
def ckMeasure (s : State) : Nat :=
  match s.ckPhase with
  | .init => s.input.length + 7
  | .add  => (s.input.length - s.ckI) + s.acc / 65535 + 6
  | .tail => (s.input.length - s.ckI) + s.acc / 65535 + 5
  | .fold => s.acc / 65535 + 3
  | .done => 1

/-- CK writes its own registers and marks only. -/
def CkFrame (s t : State) : Prop :=
  t = { s with ckPhase := t.ckPhase, ckI := t.ckI, acc := t.acc, result := t.result,
               written := { s.written with acc := t.written.acc } }

theorem ckInit_spec (s : State) (hw : s.written.input = true) (hr : s.result = none) (hp : s.ckPhase = .init) :
    CkInv (ckInit s) ∧ CkFrame s (ckInit s) ∧ ckMeasure (ckInit s) < ckMeasure s ∧ (ckInit s).ckPhase = .add := by
  refine ⟨?_, rfl, ?_, rfl⟩
  · simp [CkInv, ckInit, writeAcc, wordSum, hw, hr]
  · simp [ckMeasure, ckInit, writeAcc, hp]

theorem ckAdd_spec (s : State) (h : CkInv s) (hp : s.ckPhase = .add) :
    ∃ t, ckAdd s = .next t ∧ CkInv t ∧ CkFrame s t ∧ ckMeasure t < ckMeasure s ∧ t.ckPhase ≠ .init := by
  obtain ⟨hw, h⟩ := h
  rw [hp] at h
  obtain ⟨ha, he, hi, hacc, hr⟩ := h
  by_cases h2 : s.ckI + 1 < s.input.length
  · have h1 : s.ckI < s.input.length := by omega
    refine ⟨{ writeAcc (s.acc + (word s.input[s.ckI] s.input[s.ckI + 1]).toNat) s with ckI := s.ckI + 2 }, ?_, ?_, rfl, ?_, ?_⟩
    · simp [ckAdd, withInput, withByte, withAcc, hw, ha, h2, h1]
    · simp only [CkInv, writeAcc, hp]
      refine ⟨hw, trivial, by omega, by omega, ?_, hr⟩
      rw [wordSum_take_pair _ _ he h2, hacc]
    · have := word_toNat_le s.input[s.ckI] s.input[s.ckI + 1]
      simp only [ckMeasure, writeAcc, hp]
      omega
    · simp [writeAcc, hp]
  · by_cases h1 : s.ckI + 1 = s.input.length
    · refine ⟨{ s with ckPhase := .tail }, ?_, ?_, rfl, ?_, by simp⟩
      · simp [ckAdd, withInput, hw, h1]
      · simp only [CkInv]
        exact ⟨hw, ha, he, h1, hacc, hr⟩
      · simp [ckMeasure, hp]
    · have h0 : s.ckI = s.input.length := by omega
      refine ⟨{ s with ckPhase := .fold }, ?_, ?_, rfl, ?_, by simp⟩
      · simp [ckAdd, withInput, hw, h0]
      · simp only [CkInv]
        refine ⟨hw, ha, h0, ?_, hr⟩
        rw [hacc, h0, List.take_length]
      · simp only [ckMeasure, hp]
        omega

theorem ckTail_spec (s : State) (h : CkInv s) (hp : s.ckPhase = .tail) :
    ∃ t, ckTail s = .next t ∧ CkInv t ∧ CkFrame s t ∧ ckMeasure t < ckMeasure s ∧ t.ckPhase ≠ .init := by
  obtain ⟨hw, h⟩ := h
  rw [hp] at h
  obtain ⟨ha, he, hi, hacc, hr⟩ := h
  have hl : s.input.length - 1 = s.ckI := by omega
  have h1 : s.ckI < s.input.length := by omega
  refine ⟨{ writeAcc (s.acc + (word s.input[s.ckI] 0).toNat) s with ckI := s.input.length, ckPhase := .fold }, ?_, ?_, rfl, ?_,
    by simp⟩
  · simp [ckTail, withInput, withByte, withAcc, hw, ha, hl, h1]
  · simp only [CkInv, writeAcc]
    refine ⟨hw, trivial, trivial, ?_, hr⟩
    rw [wordSum_odd_tail _ _ he hi, hacc]
  · have := word_toNat_le s.input[s.ckI] 0
    simp only [ckMeasure, writeAcc, hp]
    omega

theorem ckFold_spec (s : State) (h : CkInv s) (hp : s.ckPhase = .fold) :
    ∃ t, ckFold s = .next t ∧ CkInv t ∧ CkFrame s t ∧ ckMeasure t < ckMeasure s ∧ t.ckPhase ≠ .init := by
  obtain ⟨hw, h⟩ := h
  rw [hp] at h
  obtain ⟨ha, hi, hacc, hr⟩ := h
  by_cases hgt : s.acc > accMask
  · refine ⟨writeAcc (foldPass s.acc) s, ?_, ?_, rfl, ?_, by simp [writeAcc, hp]⟩
    · simp [ckFold, withAcc, ha, hgt]
    · simp only [CkInv, writeAcc, hp]
      exact ⟨hw, trivial, hi, by rw [foldStar_foldPass, hacc], hr⟩
    · have := foldPass_div_lt hgt
      simp only [ckMeasure, writeAcc, hp]
      omega
  · have hle : s.acc ≤ 65535 := by simpa [accMask] using hgt
    rw [foldStar_of_le hle] at hacc
    refine ⟨{ s with result := some (complement16 s.acc), ckPhase := .done }, ?_, ?_, rfl, ?_, by simp⟩
    · simp [ckFold, withAcc, ha, hgt]
    · simp only [CkInv]
      refine ⟨hw, hi, hacc, ?_⟩
      rw [complement16_eq hle, hacc]
      rfl
    · simp only [ckMeasure, hp]
      omega

/-- What a step of CK can do, outside INIT and DONE. -/
theorem ckTick_spec (s : State) (h : CkInv s) (hi : s.ckPhase ≠ .init) (hd : s.ckPhase ≠ .done) :
    ∃ t, ckTick s = .next t ∧ CkInv t ∧ CkFrame s t ∧ ckMeasure t < ckMeasure s ∧ t.ckPhase ≠ .init := by
  cases hp : s.ckPhase with
  | init => exact absurd hp hi
  | done => exact absurd hp hd
  | add  => simpa only [ckTick, hp] using ckAdd_spec s h hp
  | tail => simpa only [ckTick, hp] using ckTail_spec s h hp
  | fold => simpa only [ckTick, hp] using ckFold_spec s h hp

end Sys2Proof.Machine
end

