-- ==== Sys2Proof/Laws/HbTick.lean ====
section
/-! SUPPORT. What a micro-step of BUILD can do. -/

namespace Sys2Proof.Machine

theorem headerWith_length (f : Fields) (c : Word) : (headerWith f c).length = 20 := rfl

/-- 20 bytes that agree with a list of 20 bytes are that list. -/
theorem toList_eq_of_getD (v : Vector Byte Config.hdrLen) (l : List Byte) (hl : l.length = 20)
    (h : ∀ (k : Nat) (_ : k < Config.hdrLen), v[k] = l.getD k 0) : v.toList = l := by
  apply List.ext_getElem
  · simp [hl]
  · intro k h1 h2
    have hk : k < Config.hdrLen := by simpa using h1
    have := h k hk
    simpa [List.getD_eq_getElem?_getD, h2] using this

theorem all_marks (v : Vector Bool Config.hdrLen) (h : ∀ (k : Nat) (_ : k < Config.hdrLen), v[k] = true) :
    v.toList.all id = true := by
  rw [List.all_eq_true]
  intro x hx
  obtain ⟨k, hk, rfl⟩ := List.getElem_of_mem hx
  have hk' : k < Config.hdrLen := by simpa using hk
  simpa using h k hk'

theorem stepOfByte_lt {k : Nat} (_ : k < Config.hdrLen) : 2 ≤ stepOfByte k ∧ stepOfByte k ≤ 11 := by
  simp only [stepOfByte]
  split_ifs <;> omega

/-- Putting the checksum into bytes 10-11 of the header with the placeholder gives the final header (R82). -/
theorem header_set_checksum (f : Fields) (c : Word) :
    ((headerWith f 0).set 10 (hiByte c)).set 11 (loByte c) = headerWith f c := rfl

theorem fieldsValid_version {f : Fields} (h : fieldsValid f = true) : f.version = 4 := by
  simp only [fieldsValid, Config.version, Bool.and_eq_true, beq_iff_eq] at h
  apply BitVec.eq_of_toNat_eq
  simpa using h.1.1

theorem versionIhlByte_eq {f : Fields} (h : fieldsValid f = true) : versionIhlByte f = 0x40 ||| f.headerLengthWords := by
  simp [versionIhlByte, fieldsValid_version h]

theorem fieldsValid_iff (f : Fields) : fieldsValid f = true ↔ Accepts f := by
  simp only [fieldsValid, Accepts, totalLengthOf, Fields.payloadLength, Config.version, Config.ihlMin, Config.ihlMax,
    Config.totalMax, Config.hdrLen, Bool.and_eq_true, beq_iff_eq]
  constructor
  · rintro ⟨⟨h1, h2, h3⟩, h4⟩
    have := of_decide_eq_true h4
    exact ⟨BitVec.eq_of_toNat_eq (by simpa using h1), of_decide_eq_true h2, of_decide_eq_true h3, by omega⟩
  · rintro ⟨h1, h2, h3, h4⟩
    exact ⟨⟨by simp [h1], decide_eq_true h2, decide_eq_true h3⟩, decide_eq_true (by omega)⟩

/-- How many micro-steps of a BUILD are left, at most, before its response is delivered. -/
def hbMeasure (s : State) : Nat :=
  match s.status with
  | some _ => 1
  | none =>
    match s.hbStep with
    | .payload  => 2
    | .checksum => if s.ckPhase = .init then 39 else ckMeasure s + 3
    | step      => 52 - step.number

/-- BUILD leaves its operands alone and everything outside the block (R70). -/
def HbFrame (s t : State) : Prop :=
  t.busy = s.busy ∧ t.pending = s.pending ∧ t.op = s.op ∧ t.operands = s.operands ∧ t.delivered = s.delivered ∧
  t.verdict = s.verdict ∧ t.seqEnd = s.seqEnd ∧ t.channel = s.channel

/-- The registers a step before the checksum finds and leaves. -/
theorem hbInv_advance {s t : State} (h : HbInv s) (hs : s.hbStep.number < 12) (hv : s.hbStep ≠ .validate)
    (hstep : t.hbStep = s.hbStep.next)
    (hsame : t.out = s.out ∧ t.operands = s.operands ∧ t.ckPhase = s.ckPhase ∧ t.result = s.result ∧
      t.totalLength = s.totalLength ∧ t.written.operands = s.written.operands ∧
      t.written.totalLength = s.written.totalLength)
    (hb : BytesDone t) : HbInv t := by
  obtain ⟨h1, h2, _, h4, h5, h6, _, _⟩ := h
  obtain ⟨g1, g2, g3, g4, g5, g6, g7⟩ := hsame
  have hc : s.ckPhase = .init := by
    apply h6 <;> intro hh <;> rw [hh] at hs <;> simp [HbStep.number] at hs
  refine ⟨by rw [g1, h1], by rw [g6, h2], hb, fun _ => ?_, fun _ => by rw [g4, h5 hc], fun _ _ => by rw [g3, hc],
    fun _ hne => absurd (by rw [g3, hc]) hne, fun hp => ?_⟩
  · rw [g2, g5, g7]
    exact h4 hv
  · rw [hstep] at hp
    cases hh : s.hbStep <;> rw [hh] at hp hs <;> simp [HbStep.next, HbStep.number] at hp hs

/-- A step that writes its bytes and moves on has done them and all before it. -/
theorem hbTick_write {s t : State} (h : HbInv s) (hs : s.hbStep.number < 12) (hv : s.hbStep ≠ .validate)
    (hst : s.status = none) (heq : hbTick s = .next t) (hstep : t.hbStep = s.hbStep.next)
    (hsame : t.status = s.status ∧ t.out = s.out ∧ t.operands = s.operands ∧ t.ckPhase = s.ckPhase ∧ t.result = s.result ∧
      t.totalLength = s.totalLength ∧ t.written.operands = s.written.operands ∧
      t.written.totalLength = s.written.totalLength)
    (hb : BytesDone t) (hf : HbFrame s t) :
    ∃ t, hbTick s = .next t ∧ BuildInv t ∧ HbFrame s t ∧ hbMeasure t < hbMeasure s := by
  refine ⟨t, heq, ?_, hf, ?_⟩
  · simp only [BuildInv, hsame.1, hst]
    exact hbInv_advance h hs hv hstep hsame.2 hb
  · have hc : t.ckPhase = .init := by
      rw [hsame.2.2.2.1]
      apply h.2.2.2.2.2.1 <;> intro hh <;> rw [hh] at hs <;> simp [HbStep.number] at hs
    simp only [hbMeasure, hsame.1, hst, hstep]
    cases hh : s.hbStep <;> rw [hh] at hs hv <;> simp [HbStep.next, HbStep.number, hc] at hs hv ⊢

theorem bytesDone_of (s t : State) (hs : BytesDone s) (hne' : s.hbStep ≠ .payload)
    (hop : t.operands = s.operands)
    (h : ∀ (k : Nat) (hk : k < Config.hdrLen), stepOfByte k < t.hbStep.number →
      (t.written.hbuf[k] = true ∧ t.hbuf[k] = (headerWith s.operands 0).getD k 0) ∨
      (stepOfByte k < s.hbStep.number ∧ t.written.hbuf[k] = s.written.hbuf[k] ∧ t.hbuf[k] = s.hbuf[k])) :
    BytesDone t := by
  intro k hk hlt
  rcases h k hk hlt with ⟨h1, h2⟩ | ⟨h1, h2, h3⟩
  · exact ⟨h1, fun _ => by rw [h2, hop]⟩
  · have := hs k hk h1
    exact ⟨by rw [h2, this.1], fun _ => by rw [h3, this.2 hne', hop]⟩

/-- Step 2 (R72). -/
theorem hb_byte0_spec (s : State) (h : HbInv s) (hst : s.status = none) (hp : s.hbStep = .byte0) :
    ∃ t, hbTick s = .next t ∧ BuildInv t ∧ HbFrame s t ∧ hbMeasure t < hbMeasure s := by
  have hv := h.2.2.2.1 (by simp [hp])
  refine hbTick_write (t := hbByte0 s.operands s) h (by simp [hp, HbStep.number]) (by simp [hp]) hst
    (by simp [hbTick, hp, withOperands, h.2.1]) (by simp [hbByte0]) (by simp [hbByte0]) ?_ (by simp [HbFrame, hbByte0])
  refine bytesDone_of s _ h.2.2.1 (by simp [hp]) (by simp [hbByte0]) ?_
  intro k hk
  simp only [Config.hdrLen] at hk
  interval_cases k <;> simp [hbByte0, hp, HbStep.next, HbStep.number, stepOfByte, headerWith, versionIhlByte_eq hv.1]

/-- Step 3 (R73). -/
theorem hb_typeOfService_spec (s : State) (h : HbInv s) (hst : s.status = none) (hp : s.hbStep = .typeOfService) :
    ∃ t, hbTick s = .next t ∧ BuildInv t ∧ HbFrame s t ∧ hbMeasure t < hbMeasure s := by
  refine hbTick_write (t := hbTypeOfService s.operands s) h (by simp [hp, HbStep.number]) (by simp [hp]) hst
    (by simp [hbTick, hp, withOperands, h.2.1]) (by simp [hbTypeOfService]) (by simp [hbTypeOfService]) ?_ (by simp [HbFrame, hbTypeOfService])
  refine bytesDone_of s _ h.2.2.1 (by simp [hp]) (by simp [hbTypeOfService]) ?_
  intro k hk
  simp only [Config.hdrLen] at hk
  interval_cases k <;> simp [hbTypeOfService, hp, HbStep.next, HbStep.number, stepOfByte, headerWith]

/-- Step 4 (R74). -/
theorem hb_totalLength_spec (s : State) (h : HbInv s) (hst : s.status = none) (hp : s.hbStep = .totalLength) :
    ∃ t, hbTick s = .next t ∧ BuildInv t ∧ HbFrame s t ∧ hbMeasure t < hbMeasure s := by
  have hv := h.2.2.2.1 (by simp [hp])
  refine hbTick_write (t := hbTotalLength s.totalLength s) h (by simp [hp, HbStep.number]) (by simp [hp]) hst
    (by simp [hbTick, hp, withTotalLength, hv.2.1]) (by simp [hbTotalLength]) (by simp [hbTotalLength]) ?_ (by simp [HbFrame, hbTotalLength])
  refine bytesDone_of s _ h.2.2.1 (by simp [hp]) (by simp [hbTotalLength]) ?_
  intro k hk
  simp only [Config.hdrLen] at hk
  interval_cases k <;> simp [hbTotalLength, hp, HbStep.next, HbStep.number, stepOfByte, headerWith, hv.2.2, totalLengthOf, Fields.payloadLength]

/-- Step 5 (R75). -/
theorem hb_identification_spec (s : State) (h : HbInv s) (hst : s.status = none) (hp : s.hbStep = .identification) :
    ∃ t, hbTick s = .next t ∧ BuildInv t ∧ HbFrame s t ∧ hbMeasure t < hbMeasure s := by
  refine hbTick_write (t := hbIdentification s.operands s) h (by simp [hp, HbStep.number]) (by simp [hp]) hst
    (by simp [hbTick, hp, withOperands, h.2.1]) (by simp [hbIdentification]) (by simp [hbIdentification]) ?_ (by simp [HbFrame, hbIdentification])
  refine bytesDone_of s _ h.2.2.1 (by simp [hp]) (by simp [hbIdentification]) ?_
  intro k hk
  simp only [Config.hdrLen] at hk
  interval_cases k <;> simp [hbIdentification, hp, HbStep.next, HbStep.number, stepOfByte, headerWith]

/-- Step 6 (R76). -/
theorem hb_flagsFragment_spec (s : State) (h : HbInv s) (hst : s.status = none) (hp : s.hbStep = .flagsFragment) :
    ∃ t, hbTick s = .next t ∧ BuildInv t ∧ HbFrame s t ∧ hbMeasure t < hbMeasure s := by
  refine hbTick_write (t := hbFlagsFragment s.operands s) h (by simp [hp, HbStep.number]) (by simp [hp]) hst
    (by simp [hbTick, hp, withOperands, h.2.1]) (by simp [hbFlagsFragment]) (by simp [hbFlagsFragment]) ?_ (by simp [HbFrame, hbFlagsFragment])
  refine bytesDone_of s _ h.2.2.1 (by simp [hp]) (by simp [hbFlagsFragment]) ?_
  intro k hk
  simp only [Config.hdrLen] at hk
  interval_cases k <;> simp [hbFlagsFragment, hp, HbStep.next, HbStep.number, stepOfByte, headerWith]

/-- Step 7 (R77). -/
theorem hb_timeToLive_spec (s : State) (h : HbInv s) (hst : s.status = none) (hp : s.hbStep = .timeToLive) :
    ∃ t, hbTick s = .next t ∧ BuildInv t ∧ HbFrame s t ∧ hbMeasure t < hbMeasure s := by
  refine hbTick_write (t := hbTimeToLive s.operands s) h (by simp [hp, HbStep.number]) (by simp [hp]) hst
    (by simp [hbTick, hp, withOperands, h.2.1]) (by simp [hbTimeToLive]) (by simp [hbTimeToLive]) ?_ (by simp [HbFrame, hbTimeToLive])
  refine bytesDone_of s _ h.2.2.1 (by simp [hp]) (by simp [hbTimeToLive]) ?_
  intro k hk
  simp only [Config.hdrLen] at hk
  interval_cases k <;> simp [hbTimeToLive, hp, HbStep.next, HbStep.number, stepOfByte, headerWith]

/-- Step 8 (R78). -/
theorem hb_protocol_spec (s : State) (h : HbInv s) (hst : s.status = none) (hp : s.hbStep = .protocol) :
    ∃ t, hbTick s = .next t ∧ BuildInv t ∧ HbFrame s t ∧ hbMeasure t < hbMeasure s := by
  refine hbTick_write (t := hbProtocol s.operands s) h (by simp [hp, HbStep.number]) (by simp [hp]) hst
    (by simp [hbTick, hp, withOperands, h.2.1]) (by simp [hbProtocol]) (by simp [hbProtocol]) ?_ (by simp [HbFrame, hbProtocol])
  refine bytesDone_of s _ h.2.2.1 (by simp [hp]) (by simp [hbProtocol]) ?_
  intro k hk
  simp only [Config.hdrLen] at hk
  interval_cases k <;> simp [hbProtocol, hp, HbStep.next, HbStep.number, stepOfByte, headerWith]

/-- Step 9 (R79). -/
theorem hb_placeholder_spec (s : State) (h : HbInv s) (hst : s.status = none) (hp : s.hbStep = .placeholder) :
    ∃ t, hbTick s = .next t ∧ BuildInv t ∧ HbFrame s t ∧ hbMeasure t < hbMeasure s := by
  refine hbTick_write (t := hbPlaceholder s) h (by simp [hp, HbStep.number]) (by simp [hp]) hst
    (by simp [hbTick, hp]) (by simp [hbPlaceholder]) (by simp [hbPlaceholder]) ?_ (by simp [HbFrame, hbPlaceholder])
  refine bytesDone_of s _ h.2.2.1 (by simp [hp]) (by simp [hbPlaceholder]) ?_
  intro k hk
  simp only [Config.hdrLen] at hk
  interval_cases k <;> simp [hbPlaceholder, hp, HbStep.next, HbStep.number, stepOfByte, headerWith]

/-- Step 10 (R80). -/
theorem hb_source_spec (s : State) (h : HbInv s) (hst : s.status = none) (hp : s.hbStep = .source) :
    ∃ t, hbTick s = .next t ∧ BuildInv t ∧ HbFrame s t ∧ hbMeasure t < hbMeasure s := by
  refine hbTick_write (t := hbSource s.operands s) h (by simp [hp, HbStep.number]) (by simp [hp]) hst
    (by simp [hbTick, hp, withOperands, h.2.1]) (by simp [hbSource]) (by simp [hbSource]) ?_ (by simp [HbFrame, hbSource])
  refine bytesDone_of s _ h.2.2.1 (by simp [hp]) (by simp [hbSource]) ?_
  intro k hk
  simp only [Config.hdrLen] at hk
  interval_cases k <;> simp [hbSource, hp, HbStep.next, HbStep.number, stepOfByte, headerWith, Ipv4Addr.octets]

/-- Step 11 (R81). -/
theorem hb_destination_spec (s : State) (h : HbInv s) (hst : s.status = none) (hp : s.hbStep = .destination) :
    ∃ t, hbTick s = .next t ∧ BuildInv t ∧ HbFrame s t ∧ hbMeasure t < hbMeasure s := by
  refine hbTick_write (t := hbDestination s.operands s) h (by simp [hp, HbStep.number]) (by simp [hp]) hst
    (by simp [hbTick, hp, withOperands, h.2.1]) (by simp [hbDestination]) (by simp [hbDestination]) ?_ (by simp [HbFrame, hbDestination])
  refine bytesDone_of s _ h.2.2.1 (by simp [hp]) (by simp [hbDestination]) ?_
  intro k hk
  simp only [Config.hdrLen] at hk
  interval_cases k <;> simp [hbDestination, hp, HbStep.next, HbStep.number, stepOfByte, headerWith, Ipv4Addr.octets]

/-- Step 1 (R71): on to step 2, or the response InvalidField and nothing written. -/
theorem hb_validate_spec (s : State) (h : HbInv s) (hst : s.status = none) (hp : s.hbStep = .validate) :
    ∃ t, hbTick s = .next t ∧ BuildInv t ∧ HbFrame s t ∧ hbMeasure t < hbMeasure s := by
  have hc : s.ckPhase = .init := h.2.2.2.2.2.1 (by simp [hp]) (by simp [hp])
  refine ⟨hbValidate s.operands s, by simp [hbTick, hp, withOperands, h.2.1], ?_, ?_, ?_⟩
  · by_cases hv : fieldsValid s.operands = true
    · simp only [BuildInv, hbValidate, hv, if_true, advance_status, writeTotalLength_status, hst]
      refine ⟨by simp [h.1], by simp [h.2.1], ?_, by simp [hv], fun _ => by simp [h.2.2.2.2.1 hc],
        fun _ _ => by simp [hc], by simp [hp, HbStep.next], by simp [hp, HbStep.next]⟩
      intro k hk hlt
      have := stepOfByte_lt hk
      simp [hp, HbStep.next, HbStep.number] at hlt
      omega
    · simp only [Bool.not_eq_true] at hv
      simp [BuildInv, hbValidate, hv, h.1]
  · unfold hbValidate
    split <;> exact ⟨rfl, rfl, rfl, rfl, rfl, rfl, rfl, rfl⟩
  · unfold hbValidate
    split <;> simp [hbMeasure, hst, hp, HbStep.next, HbStep.number]

/-- At step 12 every byte of `HBUF` is written and `HBUF` holds the header with the placeholder (R82, R145, R146). -/
theorem hbuf_at_checksum {s : State} (h : HbInv s) (hp : s.hbStep = .checksum) :
    s.written.hbuf.toList.all id = true ∧ s.hbuf.toList = headerWith s.operands 0 := by
  have hb : ∀ (k : Nat) (hk : k < Config.hdrLen), s.written.hbuf[k] = true ∧ s.hbuf[k] = (headerWith s.operands 0).getD k 0 := by
    intro k hk
    have hlt := stepOfByte_lt hk
    have := h.2.2.1 k hk (by rw [hp]; simp only [HbStep.number]; omega)
    exact ⟨this.1, this.2 (by simp [hp])⟩
  exact ⟨all_marks _ fun k hk => (hb k hk).1, toList_eq_of_getD _ _ rfl fun k hk => (hb k hk).2⟩

/-- Step 12 (R82). -/
theorem hb_checksum_spec (s : State) (h : HbInv s) (hst : s.status = none) (hp : s.hbStep = .checksum) :
    ∃ t, hbTick s = .next t ∧ BuildInv t ∧ HbFrame s t ∧ hbMeasure t < hbMeasure s := by
  obtain ⟨hm, hl⟩ := hbuf_at_checksum h hp
  obtain ⟨h1, h2, h3, h4, h5, h6, h7, h8⟩ := h
  have hv := h4 (by simp [hp])
  by_cases hi : s.ckPhase = .init
  · obtain ⟨g1, g2, g3, g4⟩ := ckInit_spec (writeInput s.hbuf.toList s) rfl (by simpa using h5 hi) hi
    refine ⟨ckInit (writeInput s.hbuf.toList s), ?_, ?_, ⟨rfl, rfl, rfl, rfl, rfl, rfl, rfl, rfl⟩, ?_⟩
    · simp [hbTick, hp, hbChecksum, hi, withHbuf, hm, ckTick]
    · have e1 : (ckInit (writeInput s.hbuf.toList s)).status = none := hst
      simp only [BuildInv, e1]
      refine ⟨h1, h2, ?_, fun _ => hv, fun hh => ?_, fun hh => absurd hp hh, fun _ _ => ⟨g1, hl⟩, fun hh => ?_⟩
      · exact h3
      · simp [g4] at hh
      · have hh' : s.hbStep = .payload := hh
        simp [hp] at hh'
    · have e1 : (ckInit (writeInput s.hbuf.toList s)).status = none := hst
      have e2 : (ckInit (writeInput s.hbuf.toList s)).hbStep = .checksum := hp
      simp only [hbMeasure, e1, e2, hst, hp, g4, hi]
      simp [ckMeasure, ckInit, writeAcc, writeInput, Config.hdrLen]
  · obtain ⟨k1, k2⟩ := h7 hp hi
    by_cases hd : s.ckPhase = .done
    · have hr : s.result = some (checksumOf s.input) := by
        have := k1.2
        rw [hd] at this
        exact this.2.2
      refine ⟨advance (writeWord 10 (checksumOf s.input) { s with headerChecksum := checksumOf s.input }), ?_, ?_,
        ⟨rfl, rfl, rfl, rfl, rfl, rfl, rfl, rfl⟩, ?_⟩
      · simp [hbTick, hp, hbChecksum, hd, withResult, hr]
      · simp only [BuildInv, advance_status, writeWord_status, hst]
        refine ⟨by simp [h1], by simp [h2], ?_, fun _ => by simpa using hv, fun hh => ?_, fun _ hh => ?_, fun hh => ?_, fun _ => ?_⟩
        · intro k hk hlt
          refine ⟨?_, fun hne => by simp [hp, HbStep.next] at hne⟩
          have hlt := stepOfByte_lt hk
          have hb := (h3 k hk (by rw [hp]; simp only [HbStep.number]; omega)).1
          simp [Vector.getElem_setIfInBounds, hb]
        · simp [hd] at hh
        · simp [hp, HbStep.next] at hh
        · simp [hp, HbStep.next] at hh
        · have hc := k1.2
          rw [hd] at hc
          refine ⟨?_, ?_, hv.2.2, by simp [hp, HbStep.next], by simpa using hd, by simpa using k2, ?_, ?_⟩
          · simp only [advance_hbuf, writeWord_hbuf, advance_operands, writeWord_operands, Vector.toList_setIfInBounds, hl, k2]
            exact header_set_checksum _ _
          · simp [k2]
          · simpa [k2, headerWith_length] using hc.1
          · simpa [k2] using hc.2.1
      · simp [hbMeasure, hst, hp, HbStep.next, hd, ckMeasure]
    · obtain ⟨t, g1, g2, g3, g4, g5⟩ := ckTick_spec s k1 hi hd
      have ht : hbTick s = .next t := by
        cases hph : s.ckPhase <;> simp_all [hbTick, hbChecksum]
      have e1 : t.status = none := by rw [g3]; exact hst
      have e2 : t.hbStep = .checksum := by rw [g3]; exact hp
      refine ⟨t, ht, ?_, ?_, ?_⟩
      · simp only [BuildInv, e1]
        refine ⟨by rw [g3]; exact h1, by rw [g3]; exact h2, by rw [g3]; exact h3, fun _ => by rw [g3]; exact hv,
          fun hh => absurd hh g5, fun hh => absurd e2 hh, fun _ _ => ⟨g2, by rw [g3]; exact k2⟩, fun hh => ?_⟩
        simp [e2] at hh
      · rw [g3]
        exact ⟨rfl, rfl, rfl, rfl, rfl, rfl, rfl, rfl⟩
      · simp only [hbMeasure, e1, e2, hst, hp, hi, g5, if_false]
        omega

/-- Step 13 (R83). -/
theorem hb_payload_spec (s : State) (h : HbInv s) (hst : s.status = none) (hp : s.hbStep = .payload) :
    ∃ t, hbTick s = .next t ∧ BuildInv t ∧ HbFrame s t ∧ hbMeasure t < hbMeasure s := by
  obtain ⟨h1, h2, h3, h4, h5, h6, h7, h8⟩ := h
  have hm : s.written.hbuf.toList.all id = true := all_marks _ fun k hk => by
    have hlt := stepOfByte_lt hk
    exact (h3 k hk (by rw [hp]; simp only [HbStep.number]; omega)).1
  refine ⟨{ s with out := some (s.hbuf.toList ++ s.operands.payload), status := some .ok }, ?_, ?_,
    ⟨rfl, rfl, rfl, rfl, rfl, rfl, rfl, rfl⟩, ?_⟩
  · simp [hbTick, hp, withOperands, h2, hbPayload, withHbuf, hm]
  · simp only [BuildInv]
    exact ⟨(h4 (by simp [hp])).1, by rw [(h8 hp).1], h8 hp⟩
  · simp [hbMeasure, hst, hp]

/-- What a micro-step of HB can do from a state that meets HB's invariant. -/
theorem hbTick_spec (s : State) (h : HbInv s) (hst : s.status = none) :
    ∃ t, hbTick s = .next t ∧ BuildInv t ∧ HbFrame s t ∧ hbMeasure t < hbMeasure s := by
  cases hp : s.hbStep with
  | validate       => exact hb_validate_spec s h hst hp
  | byte0          => exact hb_byte0_spec s h hst hp
  | typeOfService  => exact hb_typeOfService_spec s h hst hp
  | totalLength    => exact hb_totalLength_spec s h hst hp
  | identification => exact hb_identification_spec s h hst hp
  | flagsFragment  => exact hb_flagsFragment_spec s h hst hp
  | timeToLive     => exact hb_timeToLive_spec s h hst hp
  | protocol       => exact hb_protocol_spec s h hst hp
  | placeholder    => exact hb_placeholder_spec s h hst hp
  | source         => exact hb_source_spec s h hst hp
  | destination    => exact hb_destination_spec s h hst hp
  | checksum       => exact hb_checksum_spec s h hst hp
  | payload        => exact hb_payload_spec s h hst hp

end Sys2Proof.Machine
end

