-- ==== Sys2Proof/Laws/Engine.lean ====
section
/-! SUPPORT. An operation from acceptance to delivery: what one micro-step, a run of them, and one whole request can do. -/

namespace Sys2Proof.Machine

/-! Sequencing. -/

@[simp] theorem andThen_next (s : State) (k : State → Out) : andThen (.next s) k = k s := rfl
@[simp] theorem andThen_fault (r : Fault) (k : State → Out) : andThen (.fault r) k = .fault r := rfl
@[simp] theorem andThen_refused (r : Refusal) (k : State → Out) : andThen (.refused r) k = .refused r := rfl

theorem andThen_eq_next {o : Out} {k : State → Out} {t : State} (h : andThen o k = .next t) :
    ∃ s, o = .next s ∧ k s = .next t := by
  cases o with
  | next s    => exact ⟨s, rfl, h⟩
  | fault r   => simp at h
  | refused r => simp at h

/-- How many micro-steps of the operation in progress are left, at most. -/
def ticksLeft (s : State) : Nat :=
  match s.op with
  | .csum  => ckMeasure s
  | .build => hbMeasure s

theorem ckMeasure_pos (s : State) : 0 < ckMeasure s := by
  unfold ckMeasure
  split <;> omega

theorem hbMeasure_pos (s : State) : 0 < hbMeasure s := by
  unfold hbMeasure
  split
  · omega
  · split
    · omega
    · split
      · omega
      · omega
    · cases s.hbStep <;> simp [HbStep.number]

theorem ticksLeft_pos (s : State) : 0 < ticksLeft s := by
  unfold ticksLeft
  split
  · exact ckMeasure_pos s
  · exact hbMeasure_pos s

theorem ckMeasure_le (s : State) : ckMeasure s ≤ s.input.length + s.acc / 65535 + 7 := by
  unfold ckMeasure
  split <;> omega

theorem ticksLeft_le_tickBound (s : State) : ticksLeft s ≤ tickBound s := by
  have hc := ckMeasure_le s
  unfold ticksLeft tickBound
  split
  · omega
  · unfold hbMeasure
    split
    · omega
    · split
      · omega
      · split <;> omega
      · omega

/-- What no micro-step changes: the host's side and the operands, and in a CSUM all of HB too (41_checksum.md R90). -/
def OpFrame (s t : State) : Prop :=
  t.op = s.op ∧ t.pending = s.pending ∧ t.verdict = s.verdict ∧ t.seqEnd = s.seqEnd ∧ t.channel = s.channel ∧
  t.operands = s.operands ∧
  (s.op = .csum → t.input = s.input ∧ t.hbStep = s.hbStep ∧ t.hbuf = s.hbuf ∧ t.totalLength = s.totalLength ∧
    t.headerChecksum = s.headerChecksum)

theorem OpFrame.refl (s : State) : OpFrame s s := ⟨rfl, rfl, rfl, rfl, rfl, rfl, fun _ => ⟨rfl, rfl, rfl, rfl, rfl⟩⟩

theorem OpFrame.trans {a b c : State} (h : OpFrame a b) (g : OpFrame b c) : OpFrame a c := by
  obtain ⟨h1, h2, h3, h4, h5, h6, h7⟩ := h
  obtain ⟨g1, g2, g3, g4, g5, g6, g7⟩ := g
  refine ⟨g1.trans h1, g2.trans h2, g3.trans h3, g4.trans h4, g5.trans h5, g6.trans h6, fun ho => ?_⟩
  obtain ⟨a1, a2, a3, a4, a5⟩ := h7 ho
  obtain ⟨b1, b2, b3, b4, b5⟩ := g7 (h1.trans ho)
  exact ⟨b1.trans a1, b2.trans a2, b3.trans a3, b4.trans a4, b5.trans a5⟩

/-- Where CK stands when the response to a CSUM has been delivered. -/
def CkFinished (t : State) : Prop :=
  t.op = .csum → t.ckPhase = .done ∧ t.ckI = t.input.length ∧ t.acc = foldStar (wordSum t.input)

/-- Where HB stands when the packet of a BUILD has been delivered. -/
def HbFinished (t : State) : Prop := t.op = .build → fieldsValid t.operands = true → HeaderDone t

theorem csumTick_spec (s : State) (h : MachineInv s) (hb : s.busy = true) (ho : s.op = .csum) :
    ∃ t, csumTick s = .next t ∧ MachineInv t ∧ OpFrame s t ∧
      ((t.busy = true ∧ t.delivered = s.delivered ∧ ckMeasure t < ckMeasure s) ∨
       (t.busy = false ∧ t.delivered = .result (checksumOf s.input) :: s.delivered ∧ CkFinished t)) := by
  simp only [MachineInv, hb, if_true, ho] at h
  obtain ⟨h1, h2, h3⟩ := h
  by_cases hd : s.ckPhase = .done
  · have h4 := h3.2
    rw [hd] at h4
    refine ⟨deliver (.result (checksumOf s.input)) s, ?_, ?_, ⟨rfl, rfl, rfl, rfl, rfl, rfl, fun _ => ⟨rfl, rfl, rfl, rfl, rfl⟩⟩,
      Or.inr ⟨rfl, rfl, fun _ => ⟨hd, h4.1, h4.2.1⟩⟩⟩
    · simp [csumTick, hd, withResult, h4.2.2]
    · simp [MachineInv, NothingPending]
  · by_cases hi : s.ckPhase = .init
    · have hr : s.result = none := by
        have := h3.2
        rwa [hi] at this
      obtain ⟨g1, g2, g3, _⟩ := ckInit_spec s h3.1 hr hi
      refine ⟨ckInit s, by simp [csumTick, hi, ckTick], ?_, ⟨rfl, rfl, rfl, rfl, rfl, rfl, fun _ => ⟨rfl, rfl, rfl, rfl, rfl⟩⟩,
        Or.inl ⟨hb, rfl, g3⟩⟩
      have e1 : (ckInit s).busy = true := hb
      have e2 : (ckInit s).op = .csum := ho
      simp only [MachineInv, e1, if_true, e2]
      exact ⟨h1, h2, g1⟩
    · obtain ⟨t, g1, g2, g3, g4, _⟩ := ckTick_spec s h3 hi hd
      have ht : csumTick s = .next t := by
        cases hph : s.ckPhase <;> simp_all [csumTick]
      have e1 : t.busy = true := by rw [g3]; exact hb
      have e2 : t.op = .csum := by rw [g3]; exact ho
      refine ⟨t, ht, ?_, ?_, Or.inl ⟨e1, by rw [g3], g4⟩⟩
      · simp only [MachineInv, e1, if_true, e2]
        exact ⟨by rw [g3]; exact h1, by rw [g3]; exact h2, g2⟩
      · rw [g3]
        exact ⟨rfl, rfl, rfl, rfl, rfl, rfl, fun _ => ⟨rfl, rfl, rfl, rfl, rfl⟩⟩

theorem buildTick_spec (s : State) (h : MachineInv s) (hb : s.busy = true) (ho : s.op = .build) :
    ∃ t, buildTick s = .next t ∧ MachineInv t ∧ OpFrame s t ∧
      ((t.busy = true ∧ t.delivered = s.delivered ∧ hbMeasure t < hbMeasure s) ∨
       (t.busy = false ∧ t.delivered = answerTo (.build s.operands) :: s.delivered ∧ HbFinished t)) := by
  have hno : s.op ≠ .csum := by simp [ho]
  simp only [MachineInv, hb, if_true, ho, BuildInv] at h
  cases hst : s.status with
  | none =>
    rw [hst] at h
    obtain ⟨t, g1, g2, ⟨f1, f2, f3, f4, f5, f6, f7, f8⟩, g4⟩ := hbTick_spec s h hst
    refine ⟨t, by simp [buildTick, hst, g1], ?_, ⟨f3, f2, f6, f7, f8, f4, fun hc => absurd hc hno⟩, Or.inl ⟨f1.trans hb, f5, g4⟩⟩
    have e1 : t.busy = true := f1.trans hb
    have e2 : t.op = .build := f3.trans ho
    simp only [MachineInv, e1, if_true, e2]
    exact g2
  | some st =>
    rw [hst] at h
    cases st with
    | ok =>
      refine ⟨deliver (.ok (headerOf s.operands ++ s.operands.payload)) s, by simp [buildTick, hst, h.2.1],
        by simp [MachineInv, NothingPending], ⟨rfl, rfl, rfl, rfl, rfl, rfl, fun hc => absurd hc hno⟩, Or.inr ⟨rfl, ?_, fun _ _ => h.2.2⟩⟩
      simp [answerTo, h.1]
    | invalidField =>
      refine ⟨deliver .invalidField s, by simp [buildTick, hst], by simp [MachineInv, NothingPending],
        ⟨rfl, rfl, rfl, rfl, rfl, rfl, fun hc => absurd hc hno⟩, Or.inr ⟨rfl, ?_, ?_⟩⟩
      · simp [answerTo, h.1]
      · intro _ hv
        simp [h.1] at hv

/-- What a micro-step of the block can do from a busy state that meets the invariant. -/
theorem tick_spec (s : State) (h : MachineInv s) (hb : s.busy = true) :
    ∃ t, tick s = .next t ∧ MachineInv t ∧ OpFrame s t ∧
      ((t.busy = true ∧ t.delivered = s.delivered ∧ ticksLeft t < ticksLeft s) ∨
       (t.busy = false ∧ t.delivered = answerTo (requestInProgress s) :: s.delivered ∧ CkFinished t ∧ HbFinished t)) := by
  cases ho : s.op with
  | csum =>
    obtain ⟨t, g1, g2, g3, g4⟩ := csumTick_spec s h hb ho
    refine ⟨t, by simp [tick, hb, ho, g1], g2, g3, ?_⟩
    have e : t.op = .csum := g3.1.trans ho
    rcases g4 with g4 | ⟨g4, g5, g6⟩
    · exact Or.inl (by simpa only [ticksLeft, e, ho] using g4)
    · exact Or.inr ⟨g4, by simpa only [requestInProgress, ho, answerTo] using g5, g6, fun hc => by simp [e] at hc⟩
  | build =>
    obtain ⟨t, g1, g2, g3, g4⟩ := buildTick_spec s h hb ho
    refine ⟨t, by simp [tick, hb, ho, g1], g2, g3, ?_⟩
    have e : t.op = .build := g3.1.trans ho
    rcases g4 with g4 | ⟨g4, g5, g6⟩
    · exact Or.inl (by simpa only [ticksLeft, e, ho] using g4)
    · exact Or.inr ⟨g4, by simpa only [requestInProgress, ho] using g5, fun hc => by simp [e] at hc, g6⟩

theorem requestInProgress_frame {s t : State} (h : OpFrame s t) : requestInProgress t = requestInProgress s := by
  cases ho : s.op with
  | csum  => simp only [requestInProgress, h.1, ho, (h.2.2.2.2.2.2 ho).1]
  | build => simp only [requestInProgress, h.1, ho, h.2.2.2.2.2.1]

theorem run_idle (n : Nat) (s : State) (hb : s.busy = false) : run n s = .next s := by
  cases n <;> simp [run, hb]

/-- Micro-steps keep the invariant. -/
theorem run_inv (n : Nat) (s t : State) (h : MachineInv s) (ht : run n s = .next t) : MachineInv t := by
  induction n generalizing s with
  | zero =>
    simp only [run] at ht
    cases ht
    exact h
  | succ n ih =>
    rw [run] at ht
    split at ht
    · rename_i hb
      obtain ⟨u, g1, g2, _⟩ := tick_spec s h hb
      rw [g1, andThen_next] at ht
      exact ih u g2 ht
    · cases ht
      exact h

/-- Enough micro-steps take the operation in progress to its response. -/
theorem run_spec (n : Nat) (s : State) (h : MachineInv s) (hb : s.busy = true) (hn : ticksLeft s ≤ n) :
    ∃ t, run n s = .next t ∧ MachineInv t ∧ OpFrame s t ∧ t.busy = false ∧
      t.delivered = answerTo (requestInProgress s) :: s.delivered ∧ CkFinished t ∧ HbFinished t := by
  induction n generalizing s with
  | zero => have := ticksLeft_pos s; omega
  | succ n ih =>
    obtain ⟨t, g1, g2, g3, g4⟩ := tick_spec s h hb
    rcases g4 with ⟨g4, g5, g6⟩ | ⟨g4, g5, g6⟩
    · obtain ⟨u, k1, k2, k3, k4, k5, k6⟩ := ih t g2 g4 (by omega)
      refine ⟨u, by simp [run, hb, g1, k1], k2, g3.trans k3, k4, ?_, k6⟩
      rw [k5, requestInProgress_frame g3, g5]
    · exact ⟨t, by simp [run, hb, g1, run_idle n t g4], g2, g3, g4, g5, g6⟩

/-- What finishing the operation in progress can do. -/
theorem finish_busy (s : State) (h : MachineInv s) (hb : s.busy = true) :
    ∃ t, finish s = .next t ∧ MachineInv t ∧ OpFrame s t ∧ t.busy = false ∧
      t.delivered = answerTo (requestInProgress s) :: s.delivered ∧ CkFinished t ∧ HbFinished t :=
  run_spec _ s h hb (ticksLeft_le_tickBound s)

@[simp] theorem finish_idle (s : State) (hb : s.busy = false) : finish s = .next s := run_idle _ s hb

theorem accept_inv (r : Request) (s : State) : MachineInv (accept r s) := by
  cases r with
  | csum input => simp [MachineInv, CkInv]
  | build f =>
    simp only [MachineInv, accept_build_busy, if_true, accept_build_op, BuildInv, accept_build_status]
    refine ⟨rfl, rfl, ?_, by simp, fun _ => rfl, fun _ _ => rfl, by simp, by simp⟩
    intro k hk hlt
    have := stepOfByte_lt hk
    simp [HbStep.number] at hlt
    omega

/-- What one request can do on an idle block: its response is delivered, and nothing outside the block's registers changes. -/
theorem perform_idle (r : Request) (s : State) (hb : s.busy = false) :
    ∃ t, perform r s = .next t ∧ MachineInv t ∧ t.busy = false ∧ t.delivered = answerTo r :: s.delivered ∧
      OpFrame (accept r s) t ∧ CkFinished t ∧ HbFinished t := by
  obtain ⟨t, g1, g2, g3, g4, g5, g6⟩ := finish_busy (accept r s) (accept_inv r s) (by cases r <;> rfl)
  refine ⟨t, by simp [perform, hb, g1], g2, g4, ?_, g3, g6⟩
  rw [g5]
  cases r <;> rfl

/-- A request on a busy block waits for the operation in progress (10_state.md R20). -/
theorem perform_eq_of_finish {r : Request} {s u : State} (h : finish s = .next u) (hb : u.busy = false) :
    perform r s = perform r u := by
  simp [perform, h, hb]

end Sys2Proof.Machine
end

