-- ==== Sys2Proof/Laws/Exec.lean ====
section
/-! SUPPORT. The packets of GENSEQ, and what its loop can do. -/

namespace Sys2Proof.Machine

/-! The channel. -/

theorem channelWrite_ok (packet : List Byte) (c : Channel) (h : c.writes ∉ c.failWrites) :
    channelWrite packet c = ({ c with writes := c.writes + 1, sent := c.sent ++ [packet] }, true) := by
  simp [channelWrite, h]

theorem channelWrite_fail (packet : List Byte) (c : Channel) (h : c.writes ∈ c.failWrites) :
    channelWrite packet c = ({ c with writes := c.writes + 1 }, false) := by
  simp [channelWrite, h]

/-- A write that succeeds hands the packet over, and the sequence goes on (R114). -/
theorem writePacket_ok {s : State} {packet : List Byte} {rest : List Response} (k : State → Out)
    (hd : s.delivered = .ok packet :: rest) (h : s.channel.writes ∉ s.channel.failWrites) :
    writePacket s k =
      k { s with channel := { s.channel with writes := s.channel.writes + 1, sent := s.channel.sent ++ [packet] } } := by
  simp [writePacket, hd, channelWrite_ok _ _ h]

/-- A write that fails ends the sequence (R117). -/
theorem writePacket_fail {s : State} {packet : List Byte} {rest : List Response} (k : State → Out)
    (hd : s.delivered = .ok packet :: rest) (h : s.channel.writes ∈ s.channel.failWrites) :
    writePacket s k =
      .next (endSequence .channelFailure { s with channel := { s.channel with writes := s.channel.writes + 1 } }) := by
  simp [writePacket, hd, channelWrite_fail _ _ h]

/-! The field sets of GENSEQ. -/

theorem genPayload_length (k : Nat) : (genPayload k).length = 2 + k * 2 := by
  simp [genPayload, Config.genStart, Config.genStep]

theorem genFields_valid (dst : Ipv4Addr) (k : Nat) (hk : k < 12) : fieldsValid (genFields dst k) = true := by
  have hl : (genPayload k).length = 2 + k * 2 := genPayload_length k
  rw [fieldsValid_iff]
  refine ⟨rfl, ?_, ?_, ?_⟩
  · show 5 ≤ Config.defIhl.toNat
    decide
  · show Config.defIhl.toNat ≤ 15
    decide
  · have : (genFields dst k).payload.length = 2 + k * 2 := hl
    omega

/-- The answer to the k-th BUILD of GENSEQ. -/
theorem answerTo_genFields (dst : Ipv4Addr) (k : Nat) (hk : k < 12) :
    answerTo (.build (genFields dst k)) = .ok (genPacket dst k) := by
  simp only [answerTo, genFields_valid dst k hk, if_true]
  have : k * 2 = 2 * k := by omega
  simp [genPacket, genFields, applyDefaults, genPayload, Config.genStart, Config.genStep, Config.version, Config.defIhl,
    Config.defTos, Config.defId, Config.defFlags, Config.defFrag, Config.defTtl, Config.defProto, Config.defSrc, this]

/-- The packets from number `k` on, `n` of them. -/
def genPackets (dst : Ipv4Addr) (k n : Nat) : List (List Byte) := (List.range' k n).map (genPacket dst)

/-- What GENSEQ never changes. -/
def SeqFrame (s t : State) : Prop :=
  t.pending = s.pending ∧ t.verdict = s.verdict ∧ t.channel.peer = s.channel.peer ∧
  t.channel.failWrites = s.channel.failWrites ∧ t.channel.reads = s.channel.reads ∧
  t.channel.failReads = s.channel.failReads ∧ t.channel.received = s.channel.received

theorem SeqFrame.trans {a b c : State} (h : SeqFrame a b) (g : SeqFrame b c) : SeqFrame a c := by
  obtain ⟨h1, h2, h3, h4, h5, h6, h7⟩ := h
  obtain ⟨g1, g2, g3, g4, g5, g6, g7⟩ := g
  exact ⟨g1.trans h1, g2.trans h2, g3.trans h3, g4.trans h4, g5.trans h5, g6.trans h6, g7.trans h7⟩

/-- One BUILD of GENSEQ, up to its delivery. -/
theorem perform_genFields (dst : Ipv4Addr) (k : Nat) (hk : k < 12) (s : State) (hb : s.busy = false) :
    ∃ t, perform (.build (genFields dst k)) s = .next t ∧ MachineInv t ∧ t.busy = false ∧
      t.delivered = .ok (genPacket dst k) :: s.delivered ∧ t.channel = s.channel ∧ t.pending = s.pending ∧
      t.verdict = s.verdict ∧ t.seqEnd = s.seqEnd := by
  obtain ⟨t, g1, g2, g3, g4, g5, _⟩ := perform_idle (.build (genFields dst k)) s hb
  rw [answerTo_genFields dst k hk] at g4
  obtain ⟨_, f2, f3, f4, f5, _⟩ := g5
  exact ⟨t, g1, g2, g3, g4, by simpa using f5, by simpa using f2, by simpa using f3, by simpa using f4⟩

theorem inv_channel {s : State} (h : MachineInv s) (hb : s.busy = false) (c : Channel) : MachineInv { s with channel := c } := by
  simpa [MachineInv, hb, NothingPending] using h

theorem inv_endSequence {s : State} (h : MachineInv s) (hb : s.busy = false) (e : SeqEnd) : MachineInv (endSequence e s) := by
  simpa [MachineInv, hb, NothingPending] using h

/-- The loop with no failing write (R110, R118). -/
theorem genLoop_completes (dst : Ipv4Addr) (left k : Nat) (s : State) (hk : k + left ≤ 12) (hi : MachineInv s) (hb : s.busy = false)
    (hw : ∀ j, j < left → s.channel.writes + j ∉ s.channel.failWrites) :
    ∃ t, genLoop dst left k s = .next t ∧ MachineInv t ∧ t.busy = false ∧ t.seqEnd = some .completed ∧
      t.channel.sent = s.channel.sent ++ genPackets dst k left ∧ t.channel.writes = s.channel.writes + left ∧
      t.delivered = ((genPackets dst k left).map Response.ok).reverse ++ s.delivered ∧ SeqFrame s t := by
  induction left generalizing k s with
  | zero =>
    exact ⟨endSequence .completed s, rfl, inv_endSequence hi hb _, hb, rfl, by simp [genPackets], rfl, by simp [genPackets],
      ⟨rfl, rfl, rfl, rfl, rfl, rfl, rfl⟩⟩
  | succ left ih =>
    obtain ⟨u, g1, g2, g3, g4, g5, g6, g7, _⟩ := perform_genFields dst k (by omega) s hb
    have hok := fun c => writePacket_ok c g4 (by rw [g5]; simpa using hw 0 (by omega))
    obtain ⟨t, k1, k2, k3, k4, k5, k6, k7, k8⟩ := ih (k + 1)
      { u with channel := { u.channel with writes := u.channel.writes + 1, sent := u.channel.sent ++ [genPacket dst k] } }
      (by omega) (inv_channel g2 g3 _) g3 (by
        intro j hj
        have := hw (j + 1) (by omega)
        simp only [g5]
        rwa [show s.channel.writes + 1 + j = s.channel.writes + (j + 1) by omega])
    refine ⟨t, ?_, k2, k3, k4, ?_, ?_, ?_, ?_⟩
    · simp only [genLoop, g1, andThen_next, hok]
      exact k1
    · rw [k5, g5]
      simp [genPackets, List.range'_succ]
    · rw [k6, g5]
      simp only
      omega
    · rw [k7, g4]
      simp [genPackets, List.range'_succ]
    · refine SeqFrame.trans ⟨?_, ?_, ?_, ?_, ?_, ?_, ?_⟩ k8 <;> simp [g5, g6, g7]

/-- The loop when its j-th write from here is the first that fails (R117). -/
theorem genLoop_stops (dst : Ipv4Addr) (left k j : Nat) (s : State) (hk : k + left ≤ 12) (hi : MachineInv s) (hb : s.busy = false)
    (hj : j < left) (hf : s.channel.writes + j ∈ s.channel.failWrites)
    (hw : ∀ i, i < j → s.channel.writes + i ∉ s.channel.failWrites) :
    ∃ t, genLoop dst left k s = .next t ∧ MachineInv t ∧ t.busy = false ∧ t.seqEnd = some .channelFailure ∧
      t.channel.sent = s.channel.sent ++ genPackets dst k j ∧ t.channel.writes = s.channel.writes + j + 1 ∧
      t.delivered = ((genPackets dst k (j + 1)).map Response.ok).reverse ++ s.delivered ∧ SeqFrame s t := by
  induction left generalizing k s j with
  | zero => omega
  | succ left ih =>
    obtain ⟨u, g1, g2, g3, g4, g5, g6, g7, _⟩ := perform_genFields dst k (by omega) s hb
    cases j with
    | zero =>
      have hfail := fun c => writePacket_fail c g4 (by rw [g5]; simpa using hf)
      refine ⟨endSequence .channelFailure { u with channel := { u.channel with writes := u.channel.writes + 1 } }, ?_,
        inv_endSequence (inv_channel g2 g3 _) g3 .channelFailure, g3, rfl, ?_, ?_, ?_, ?_⟩
      · simp only [genLoop, g1, andThen_next, hfail]
      · simp [g5, genPackets]
      · simp [g5]
      · simp [g4, genPackets]
      · refine ⟨?_, ?_, ?_, ?_, ?_, ?_, ?_⟩ <;> simp [g5, g6, g7]
    | succ j =>
      have hok := fun c => writePacket_ok c g4 (by rw [g5]; simpa using hw 0 (by omega))
      obtain ⟨t, k1, k2, k3, k4, k5, k6, k7, k8⟩ := ih (k + 1) j
        { u with channel := { u.channel with writes := u.channel.writes + 1, sent := u.channel.sent ++ [genPacket dst k] } }
        (by omega) (inv_channel g2 g3 _) g3 (by omega)
        (by
          simp only [g5]
          rwa [show s.channel.writes + 1 + j = s.channel.writes + (j + 1) by omega])
        (by
          intro i hij
          have := hw (i + 1) (by omega)
          simp only [g5]
          rwa [show s.channel.writes + 1 + i = s.channel.writes + (i + 1) by omega])
      refine ⟨t, ?_, k2, k3, k4, ?_, ?_, ?_, ?_⟩
      · simp only [genLoop, g1, andThen_next, hok]
        exact k1
      · rw [k5, g5]
        simp [genPackets, List.range'_succ]
      · rw [k6, g5]
        simp only
        omega
      · rw [k7, g4]
        simp [genPackets, List.range'_succ]
      · refine SeqFrame.trans ⟨?_, ?_, ?_, ?_, ?_, ?_, ?_⟩ k8 <;> simp [g5, g6, g7]

end Sys2Proof.Machine
end

