-- ==== Sys2Proof/Laws/Answers.lean ====
section
/-! SUPPORT. What a request is answered with, said through `Answers`; when a checksum is 0x0000 or 0xFFFF; the parts of a packet. -/

namespace Sys2Proof.Machine

/-! Answers on an idle block. -/

/-- The request alone, as an instruction, is its operation. -/
theorem exec_instrOf (r : Request) (s : State) : exec (instrOf r) s = perform r s := by cases r <;> rfl

/-- An idle block answers a request with what it is owed and with nothing else. -/
theorem answers_instrOf (q : Request) (s : State) (hb : s.busy = false) (r : Response) :
    Answers (instrOf q) s r ↔ r = answerTo q := by
  obtain ⟨t, g1, _, _, g4, _⟩ := perform_idle q s hb
  rw [← exec_instrOf] at g1
  constructor
  · rintro ⟨u, h1, h2⟩
    rw [g1] at h1
    cases h1
    rw [g4] at h2
    exact (List.cons.inj h2).1.symm
  · rintro rfl
    exact ⟨t, g1, g4⟩

theorem answers_csum (input : List Byte) (s : State) (hb : s.busy = false) (r : Response) :
    Answers (.csum input) s r ↔ r = .result (checksumOf input) := answers_instrOf (.csum input) s hb r

theorem answers_build (f : Fields) (s : State) (hb : s.busy = false) (r : Response) :
    Answers (.build f) s r ↔ r = answerTo (.build f) := answers_instrOf (.build f) s hb r

/-- A BUILD that answers with bytes was accepted, and the bytes are header and payload (40_header_builder.md R84). -/
theorem answers_build_ok {f : Fields} {s : State} {out : List Byte} (hb : s.busy = false)
    (h : Answers (.build f) s (.ok out)) : fieldsValid f = true ∧ out = headerOf f ++ f.payload := by
  rw [answers_build _ _ hb] at h
  simp only [answerTo] at h
  split at h
  · rename_i hv
    exact ⟨hv, by simpa using h⟩
  · simp at h

/-- The illegal values are the ones step 1 rejects (40_header_builder.md R71, R84). -/
theorem illegal_iff (f : Fields) :
    (f.version ≠ 4 ∨ f.headerLengthWords.toNat < 5 ∨ f.headerLengthWords.toNat > 15 ∨ f.payload.length > 65515) ↔
      fieldsValid f = false := by
  rw [← Bool.not_eq_true, fieldsValid_iff, Accepts]
  by_cases h : f.version = 4
  · simp [h]
    omega
  · exact ⟨fun _ hh => h hh.1, fun _ => Or.inl h⟩

/-- What the host sees after one request on an idle block: its response, and nothing else new. -/
theorem perform_hostView (r : Request) (s : State) (hb : s.busy = false) :
    ∃ t, perform r s = .next t ∧ hostView t = { hostView s with delivered := answerTo r :: s.delivered } := by
  obtain ⟨t, g1, _, g3, g4, ⟨_, f2, f3, f4, f5, _⟩, _⟩ := perform_idle r s hb
  replace f2 : t.pending = s.pending := by cases r <;> exact f2
  replace f3 : t.verdict = s.verdict := by cases r <;> exact f3
  replace f4 : t.seqEnd = s.seqEnd := by cases r <;> exact f4
  replace f5 : t.channel = s.channel := by cases r <;> exact f5
  refine ⟨t, g1, ?_⟩
  simp [hostView, g3, hb, g4, f2, f3, f4, f5]

/-- VERIFY is CSUM and the conclusion (41_checksum.md R104). -/
theorem exec_verify (input : List Byte) (s : State) (hb : s.busy = false) :
    ∃ t, exec (.csum input) s = .next t ∧
      exec (.verify input) s = .next { t with verdict := some (verdictOf (checksumOf input)) } ∧
      t.delivered = .result (checksumOf input) :: s.delivered := by
  obtain ⟨t, g1, _, _, g4, _⟩ := perform_idle (.csum input) s hb
  refine ⟨t, g1, ?_, g4⟩
  simp only [answerTo] at g4
  simp [exec, execVerify, g1, conclude, g4]

/-- GENSEQ on an idle block with a peer is its loop (42_generation_sequence.md R110). -/
theorem exec_genseq (dst : Ipv4Addr) (s : State) (hb : s.busy = false) (hp : s.channel.peer = some dst) :
    exec .genseq s = genLoop dst 12 0 s := by
  simp [exec, execGenseq, hb, hp, Config.genCount]

/-- The loop of GENSEQ from two states the host cannot tell apart. -/
theorem genLoop_hostView (dst : Ipv4Addr) (left k : Nat) (s s' : State) (hb : s.busy = false) (hv : hostView s = hostView s') :
    ∃ t t', genLoop dst left k s = .next t ∧ genLoop dst left k s' = .next t' ∧ hostView t = hostView t' := by
  induction left generalizing k s s' with
  | zero =>
    refine ⟨_, _, rfl, rfl, ?_⟩
    simp only [hostView, HostView.mk.injEq, endSequence] at *
    tauto
  | succ left ih =>
    have hb' : s'.busy = false := (congrArg HostView.busy hv).symm.trans hb
    obtain ⟨t, g1, g2⟩ := perform_hostView (.build (genFields dst k)) s hb
    obtain ⟨t', g1', g2'⟩ := perform_hostView (.build (genFields dst k)) s' hb'
    have hd : s.delivered = s'.delivered := congrArg HostView.delivered hv
    have htv : hostView t = hostView t' := by rw [g2, g2', hv, hd]
    have hdt : t.delivered = t'.delivered := congrArg HostView.delivered htv
    have hct : t.channel = t'.channel := congrArg HostView.channel htv
    have htb : t.busy = false := (congrArg HostView.busy g2).trans hb
    simp only [genLoop, g1, g1', andThen_next, writePacket, hdt, hct]
    split
    · split
      · refine ih _ _ _ htb ?_
        simp only [hostView, HostView.mk.injEq] at *
        tauto
      · refine ⟨_, _, rfl, rfl, ?_⟩
        simp only [hostView, HostView.mk.injEq, endSequence] at *
        tauto
    · exact ih _ _ _ htb htv

/-! Any state that meets the invariant. -/

theorem finish_completes (s : State) (h : MachineInv s) :
    ∃ t, finish s = .next t ∧ MachineInv t ∧ t.busy = false ∧ t.channel = s.channel := by
  cases hb : s.busy with
  | false => exact ⟨s, finish_idle s hb, h, hb, rfl⟩
  | true =>
    obtain ⟨v, k1, k2, k3, k4, _⟩ := finish_busy s h hb
    exact ⟨v, k1, k2, k4, k3.2.2.2.2.1⟩

theorem perform_completes (r : Request) (s : State) (h : MachineInv s) :
    ∃ t, perform r s = .next t ∧ t.busy = false ∧ MachineInv t := by
  obtain ⟨u, k1, _, k3, _⟩ := finish_completes s h
  rw [perform_eq_of_finish k1 k3]
  obtain ⟨t, g1, g2, g3, _⟩ := perform_idle r u k3
  exact ⟨t, g1, g3, g2⟩

/-- Either none of the next `n` writes fails, or one of them is the first that does. -/
theorem first_failing_write (c : Channel) (n : Nat) :
    (∀ j, j < n → c.writes + j ∉ c.failWrites) ∨
    ∃ j, j < n ∧ c.writes + j ∈ c.failWrites ∧ ∀ i, i < j → c.writes + i ∉ c.failWrites := by
  induction n with
  | zero => exact Or.inl (by simp)
  | succ n ih =>
    rcases ih with ih | ⟨j, h1, h2, h3⟩
    · by_cases hn : c.writes + n ∈ c.failWrites
      · exact Or.inr ⟨n, by omega, hn, ih⟩
      · refine Or.inl fun j hj => ?_
        rcases Nat.lt_succ_iff_lt_or_eq.mp hj with h | rfl
        · exact ih j h
        · exact hn
    · exact Or.inr ⟨j, by omega, h2, h3⟩

/-- A number of micro-steps and one more. -/
theorem run_succ_last (n : Nat) (s t : State) (h : run n s = .next t) (hb : t.busy = true) : run (n + 1) s = tick t := by
  induction n generalizing s with
  | zero =>
    simp only [run] at h
    cases h
    rw [run, if_pos hb]
    generalize tick t = o
    cases o <;> rfl
  | succ n ih =>
    rw [run] at h
    split at h
    · rename_i hs
      obtain ⟨u, h1, h2⟩ := andThen_eq_next h
      rw [run, if_pos hs, h1, andThen_next]
      exact ih u h2
    · cases h
      simp_all

/-- Between INIT and DONE a micro-step is a step of CK, in a CSUM and in step 12 of a BUILD alike. -/
theorem tick_ckAtWork (s : State) (h : CkAtWork s) (hi : s.ckPhase ≠ .init) (hd : s.ckPhase ≠ .done) : tick s = ckTick s := by
  obtain ⟨hb, ho | ⟨ho, hs, hh⟩⟩ := h
  · cases h : s.ckPhase <;> simp_all [tick, csumTick]
  · cases h : s.ckPhase <;> simp_all [tick, buildTick, hbTick, hbChecksum]

/-- Step 12 takes CK to DONE (40_header_builder.md R82). -/
theorem checksum_step_reaches_done (n : Nat) (s : State) (hb : s.busy = true) (ho : s.op = .build) (hst : s.status = none)
    (hp : s.hbStep = .checksum) (h : CkInv s) (hi : s.ckPhase ≠ .init) (hn : ckMeasure s ≤ n) :
    ∃ m t, run m s = .next t ∧ CkFrame s t ∧ t.ckPhase = .done ∧ CkInv t := by
  induction n generalizing s with
  | zero =>
    have := ckMeasure_pos s
    omega
  | succ n ih =>
    by_cases hd : s.ckPhase = .done
    · exact ⟨0, s, rfl, rfl, hd, h⟩
    · obtain ⟨t, g1, g2, g3, g4, g5⟩ := ckTick_spec s h hi hd
      have ht : tick s = .next t := by
        simp only [tick, hb, ho, if_true, buildTick, hst, hbTick, hp, hbChecksum]
        cases hph : s.ckPhase <;> simp_all
      obtain ⟨m, u, k1, k2, k3, k4⟩ := ih t (by rw [g3]; exact hb) (by rw [g3]; exact ho) (by rw [g3]; exact hst)
        (by rw [g3]; exact hp) g2 g5 (by omega)
      refine ⟨m + 1, u, by simp [run, hb, ht, k1], ?_, k3, k4⟩
      unfold CkFrame at *
      rw [k2, g3]

/-- A step of CK leaves HB's step and operands alone, whatever state it starts from. -/
theorem ckTick_leaves_hb {s t : State} (h : ckTick s = .next t) : t.hbStep = s.hbStep ∧ t.operands = s.operands := by
  unfold ckTick at h
  cases hp : s.ckPhase <;> simp only [hp] at h
  · cases h
    exact ⟨rfl, rfl⟩
  · unfold ckAdd withInput withByte withAcc at h
    repeat' (first | contradiction | (dsimp only at h; split at h) | split at h | (cases h; exact ⟨rfl, rfl⟩))
  · unfold ckTail withInput withByte withAcc at h
    repeat' (first | contradiction | (dsimp only at h; split at h) | split at h | (cases h; exact ⟨rfl, rfl⟩))
  · unfold ckFold withAcc at h
    repeat' (first | contradiction | (dsimp only at h; split at h) | split at h | (cases h; exact ⟨rfl, rfl⟩))
  · contradiction

/-! When a checksum is 0x0000 or 0xFFFF (41_checksum.md R102). -/

theorem checksumOf_congr {a b : List Byte} (h : foldStar (wordSum a) = foldStar (wordSum b)) : checksumOf a = checksumOf b := by
  simp [checksumOf, h]

theorem checksumOf_eq_iff (a : List Byte) (w : Word) : checksumOf a = w ↔ 65535 - foldStar (wordSum a) = w.toNat := by
  rw [← BitVec.toNat_inj, checksumOf_toNat]

theorem checksumOf_zero_iff (a : List Byte) : checksumOf a = 0x0000 ↔ 0 < wordSum a ∧ 65535 ∣ wordSum a := by
  rw [checksumOf_eq_iff]
  simp only [foldStar]
  split <;> simp <;> omega

theorem checksumOf_ones_iff (a : List Byte) : checksumOf a = 0xFFFF ↔ wordSum a = 0 := by
  rw [checksumOf_eq_iff]
  simp only [foldStar]
  split <;> simp <;> omega

theorem wordSum_zero_iff (l : List Byte) : wordSum l = 0 ↔ ∀ b ∈ l, b = 0x00 := by
  have h8 : ∀ b : Byte, b = 0x00 ↔ b.toNat = 0 := fun b =>
    ⟨fun h => by simp [h], fun h => BitVec.eq_of_toNat_eq (by simpa using h)⟩
  induction l using wordSum.induct with
  | case1 hi lo r ih =>
    simp only [List.mem_cons, forall_eq_or_imp, ← ih]
    simp only [wordSum, word_toNat, h8]
    omega
  | case2 b =>
    simp only [wordSum, word_toNat, List.mem_singleton, forall_eq, h8]
    simp
  | case3 => simp [wordSum]

theorem wordSum_pairs (ws : List (Byte × Byte)) :
    wordSum (ws.flatMap fun w => [w.1, w.2]) = (ws.map fun w => (word w.1 w.2).toNat).sum := by
  induction ws with
  | nil => simp [wordSum]
  | cons w ws ih => simp [wordSum, ih]

/-- The folded sum is never 0 when S > 0 (R102). -/
theorem foldStar_pos {S : Nat} (h : 0 < S) : 0 < foldStar S := by
  simp only [foldStar]
  split <;> omega

/-- Word 0 of an accepted header is at least 0x4500, and the header sums to no less (R102). -/
theorem wordSum_headerWith_ge {f : Fields} (h : Accepts f) (c : Word) :
    0x4500 ≤ (word (0x40 ||| f.headerLengthWords) f.typeOfService).toNat ∧
    (word (0x40 ||| f.headerLengthWords) f.typeOfService).toNat ≤ wordSum (headerWith f c) := by
  have h40 : ∀ l : Byte, 5 ≤ l.toNat → l.toNat ≤ 15 → 0x45 ≤ (0x40 ||| l).toNat := by decide
  have := h40 _ h.2.1 h.2.2.1
  constructor
  · rw [word_toNat]
    omega
  · simp only [headerWith, List.cons_append, wordSum]
    omega

/-- A header never sums to 0: byte 0 is not 0 (41_checksum.md R102). -/
theorem wordSum_headerWith_pos (f : Fields) (c : Word) : 0 < wordSum (headerWith f c) := by
  have hb : (0x40 ||| f.headerLengthWords).toNat ≠ 0 := by
    intro h
    have : (0x40 ||| f.headerLengthWords : Byte) = 0 := BitVec.eq_of_toNat_eq h
    have h6 := congrArg (fun b => BitVec.getLsbD b 6) this
    simp at h6
  simp only [headerWith, List.cons_append, wordSum, word_toNat]
  omega

/-- BUILD never writes the checksum 0xFFFF (R102). -/
theorem checksumOf_headerWith_ne_ones (f : Fields) (c : Word) : checksumOf (headerWith f c) ≠ 0xFFFF := by
  rw [ne_eq, checksumOf_ones_iff]
  have := wordSum_headerWith_pos f c
  omega

/-! The parts of a packet. -/

theorem headerOf_length (f : Fields) : (headerOf f).length = 20 := rfl

theorem take_packet (f : Fields) (p : List Byte) : (headerOf f ++ p).take 20 = headerOf f := List.take_left' rfl

theorem drop_packet (f : Fields) (p : List Byte) : (headerOf f ++ p).drop 20 = p := List.drop_left' rfl

theorem getChecksum_headerWith (f : Fields) (c : Word) (l : List Byte) : getChecksum (headerWith f c ++ l) = c := by
  show word (hiByte c) (loByte c) = c
  simp

theorem totalLength_toNat {f : Fields} (h : fieldsValid f = true) :
    (BitVec.ofNat 16 (20 + f.payload.length) : Word).toNat = 20 + f.payload.length := by
  have := ((fieldsValid_iff f).mp h).2.2.2
  simp
  omega

theorem genPacket_length (dst : Ipv4Addr) (k : Nat) : (genPacket dst k).length = 22 + 2 * k := by
  simp [genPacket, headerOf_length]
  omega

/-! Wire bits (00_scope.md R8). -/

theorem wireField_add (h : List Byte) (w m n : Nat) :
    wireField h w (m + n) = wireField h w m * 2 ^ n + wireField h (w + m) n := by
  induction m generalizing w with
  | zero => simp [wireField]
  | succ m ih =>
    rw [show m + 1 + n = (m + n) + 1 by omega]
    simp only [wireField]
    rw [ih, show w + (m + 1) = w + 1 + m by omega, Nat.pow_add]
    ring

theorem byte_of_bits (b : Byte) :
    (b.getLsbD 7).toNat * 128 + (b.getLsbD 6).toNat * 64 + (b.getLsbD 5).toNat * 32 + (b.getLsbD 4).toNat * 16 +
      (b.getLsbD 3).toNat * 8 + (b.getLsbD 2).toNat * 4 + (b.getLsbD 1).toNat * 2 + (b.getLsbD 0).toNat = b.toNat := by
  revert b
  decide

theorem wireField_byte (h : List Byte) (k : Nat) : wireField h (8 * k) 8 = (headerByte h k).toNat := by
  have e : ∀ i, i < 8 → wireBit h (8 * k + i) = (headerByte h k).getLsbD (7 - i) := by
    intro i hi
    unfold wireBit
    rw [show (8 * k + i) / 8 = k by omega, show (8 * k + i) % 8 = i by omega]
  have e0 : wireBit h (8 * k) = (headerByte h k).getLsbD 7 := e 0 (by omega)
  simp only [wireField, Nat.add_assoc, Nat.reduceAdd]
  rw [e0, e 1 (by omega), e 2 (by omega), e 3 (by omega), e 4 (by omega), e 5 (by omega), e 6 (by omega), e 7 (by omega)]
  simp only [Nat.reduceSub]
  have := byte_of_bits (headerByte h k)
  omega

theorem wireField_lt (h : List Byte) (w n : Nat) : wireField h w n < 2 ^ n := by
  induction n generalizing w with
  | zero => simp [wireField]
  | succ n ih =>
    have := ih (w + 1)
    simp only [wireField]
    rw [Nat.pow_succ]
    cases wireBit h w <;> simp <;> omega

end Sys2Proof.Machine
end

