-- ==== Sys2Proof/Laws/Decode.lean ====
section
/-! SUPPORT. Laws of the readers: each takes off the front exactly what its encoder wrote. -/

namespace Sys2Proof

@[simp] theorem readByte_cons (b : Byte) (r : List Byte) : readByte (b :: r) = .ok (b, r) := rfl

@[simp] theorem readWord_be16 (v : Word) (r : List Byte) : readWord (be16 v ++ r) = .ok (v, r) := by
  simp [be16, readWord]

@[simp] theorem readAddr_octets (a : Ipv4Addr) (r : List Byte) : readAddr (a.octets ++ r) = .ok (a, r) := rfl

@[simp] theorem readFlags_setWidth (v : BitVec 3) (r : List Byte) : readFlags (BitVec.setWidth 8 v :: r) = .ok (v, r) := by
  have h := v.isLt
  have hlt : v.toNat < 8 := by omega
  simp [readFlags, Nat.mod_eq_of_lt (by omega : v.toNat < 256), hlt]

@[simp] theorem readFragment_be16 (v : BitVec 13) (r : List Byte) :
    readFragment (be16 (BitVec.setWidth 16 v) ++ r) = .ok (v, r) := by
  have h := v.isLt
  have hlt : v.toNat < 8192 := by omega
  simp [readFragment, be16, Nat.mod_eq_of_lt (by omega : v.toNat < 65536), hlt]

theorem readOption_encodeOption {α : Type} (rd : Reader α) (enc : α → List Byte)
    (h : ∀ v r, rd (enc v ++ r) = .ok (v, r)) (o : Option α) (r : List Byte) :
    readOption rd (encodeOption enc o ++ r) = .ok (o, r) := by
  cases o with
  | none => simp [readOption, encodeOption]
  | some v => simp [readOption, encodeOption, h]

@[simp] theorem readPayload_encodePayload (payload : List Byte) (h : payloadFits payload = true) :
    readPayload (encodePayload payload) = .ok payload := by
  have hl : payload.length < 2 ^ 32 := of_decide_eq_true h
  have := nat32_be32 payload.length hl
  simp only [encodePayload, be32, List.cons_append, List.nil_append, readPayload, this, if_true]

/-! The same, byte by byte, for the other direction: what a reader took is what the encoder writes. -/

theorem readByte_ok {l r : List Byte} {v : Byte} (h : readByte l = .ok (v, r)) : l = v :: r := by
  cases l with
  | nil => simp [readByte] at h
  | cons a t => simp [readByte] at h; simp [h]

theorem readWord_ok {l r : List Byte} {v : Word} (h : readWord l = .ok (v, r)) : l = be16 v ++ r := by
  match l, h with
  | a :: b :: t, h =>
    simp [readWord] at h
    obtain ⟨rfl, rfl⟩ := h
    simp [be16]

theorem readAddr_ok {l r : List Byte} {v : Ipv4Addr} (h : readAddr l = .ok (v, r)) : l = v.octets ++ r := by
  match l, h with
  | a :: b :: c :: d :: t, h =>
    simp [readAddr] at h
    obtain ⟨rfl, rfl⟩ := h
    simp [Ipv4Addr.octets]

theorem readFlags_ok {l r : List Byte} {v : BitVec 3} (h : readFlags l = .ok (v, r)) : l = BitVec.setWidth 8 v :: r := by
  match l, h with
  | a :: t, h =>
    simp only [readFlags] at h
    split at h
    · rename_i hlt
      simp at h
      obtain ⟨rfl, rfl⟩ := h
      congr 1
      apply BitVec.eq_of_toNat_eq
      simp
      omega
    · simp at h

theorem readFragment_ok {l r : List Byte} {v : BitVec 13} (h : readFragment l = .ok (v, r)) :
    l = be16 (BitVec.setWidth 16 v) ++ r := by
  match l, h with
  | a :: b :: t, h =>
    simp only [readFragment] at h
    split at h
    · rename_i hlt
      simp at h
      obtain ⟨rfl, rfl⟩ := h
      have : BitVec.setWidth 16 (BitVec.setWidth 13 (word a b)) = word a b := by
        apply BitVec.eq_of_toNat_eq
        simp
        omega
      simp only [this, be16, hiByte_word, loByte_word, List.cons_append, List.nil_append]
    · simp at h

theorem readOption_ok {α : Type} (rd : Reader α) (enc : α → List Byte)
    (h : ∀ {l r v}, rd l = .ok (v, r) → l = enc v ++ r) {l r : List Byte} {o : Option α}
    (ho : readOption rd l = .ok (o, r)) : l = encodeOption enc o ++ r := by
  match l, ho with
  | b :: t, ho =>
    simp only [readOption] at ho
    split at ho
    · rename_i hb
      simp at ho
      obtain ⟨rfl, rfl⟩ := ho
      simp [encodeOption, hb]
    · split at ho
      · rename_i hb
        split at ho
        · rename_i v r' hrd
          simp at ho
          obtain ⟨rfl, rfl⟩ := ho
          simp [encodeOption, hb, h hrd]
        · simp at ho
      · simp at ho

theorem readPayload_ok {l payload : List Byte} (h : readPayload l = .ok payload) :
    l = encodePayload payload ∧ payloadFits payload = true := by
  match l, h with
  | a :: b :: c :: d :: t, h =>
    simp only [readPayload] at h
    split at h
    · rename_i hlen
      simp at h
      subst h
      have hb := be32_nat32 a b c d
      have hlt := nat32_lt a b c d
      rw [hlen] at hb hlt
      refine ⟨by simp [encodePayload, hb], decide_eq_true hlt⟩
    · simp at h

end Sys2Proof
end

