-- ==== Sys2Proof/Laws/PerInstr.lean ====
section
/-! SUPPORT. Statements about every instruction as syntax, one lemma per constructor (LAWS.json). -/

namespace Sys2Proof.Laws

/-- Byte 0 gives back the operation select and the form. -/
def Head.Statement (i : Instr) : Prop :=
  opOfBit ((headByte i).getLsbD 0) = i.op ∧ formOf (headByte i) = i.form.toNat

theorem Head.csum (input : List Byte) : Head.Statement (.csum input) := by constructor <;> simp [formOf, headByte, Instr.form, Instr.op, Op.code, opOfBit]
theorem Head.build (f : Fields) : Head.Statement (.build f) := by constructor <;> simp [formOf, headByte, Instr.form, Instr.op, Op.code, opOfBit]
theorem Head.buildDef (o : Overrides) (destination : Ipv4Addr) (payload : List Byte) :
    Head.Statement (.buildDef o destination payload) := by constructor <;> simp [formOf, headByte, Instr.form, Instr.op, Op.code, opOfBit]
theorem Head.verify (input : List Byte) : Head.Statement (.verify input) := by constructor <;> simp [formOf, headByte, Instr.form, Instr.op, Op.code, opOfBit]
theorem Head.genseq : Head.Statement .genseq := by constructor <;> simp [formOf, headByte, Instr.form, Instr.op, Op.code, opOfBit]

/-- The operand bytes of a well-formed instruction give back the instruction. -/
def OperandBytes.Statement (i : Instr) : Prop :=
  i.wf = true → decodeOperands i.op i.form.toNat (encodeOperands i) = .ok i

theorem OperandBytes.csum (input : List Byte) : OperandBytes.Statement (.csum input) := fun _ => rfl

theorem OperandBytes.build (f : Fields) : OperandBytes.Statement (.build f) := by
  intro h
  have hp : readPayload (encodePayload f.payload) = .ok f.payload := readPayload_encodePayload _ h
  simp [Instr.op, Instr.form, decodeOperands, decodeBuild, encodeOperands, encodeFields, bind, Except.bind, hp, pure,
    Except.pure]

theorem OperandBytes.buildDef (o : Overrides) (destination : Ipv4Addr) (payload : List Byte) :
    OperandBytes.Statement (.buildDef o destination payload) := by
  intro h
  have hp : readPayload (encodePayload payload) = .ok payload := readPayload_encodePayload _ h
  have hb := readOption_encodeOption readByte (fun b => [b]) (fun _ _ => rfl)
  have hw := readOption_encodeOption readWord be16 readWord_be16
  have hf := readOption_encodeOption readFlags (fun v => [BitVec.setWidth 8 v]) readFlags_setWidth
  have hg := readOption_encodeOption readFragment (fun v => be16 (BitVec.setWidth 16 v)) readFragment_be16
  have ha := readOption_encodeOption readAddr Ipv4Addr.octets readAddr_octets
  simp [Instr.op, Instr.form, decodeOperands, decodeBuildDef, encodeOperands, encodeOverrides, bind, Except.bind, hp, hb,
    hw, hf, hg, ha, pure, Except.pure, List.append_assoc]

theorem OperandBytes.verify (input : List Byte) : OperandBytes.Statement (.verify input) := fun _ => rfl

theorem OperandBytes.genseq : OperandBytes.Statement .genseq := fun _ => rfl

end Sys2Proof.Laws
end

