-- ==== Sys2Proof/Tests/Slice0.lean ====
section
/-! SUPPORT. Tests: the check of well-formedness refuses, records written out bit by bit decode to what they stand for, at most
two vectors of spec/95_test_vectors.md per instruction, and for every obligation with hypotheses a witness that meets them. -/

namespace Sys2Proof.Tests

open Sys2Proof Sys2Proof.Machine

set_option maxRecDepth 4000

/-- The next state of an outcome, if it is one. -/
def nextOf : Out → Option State
  | .next s    => some s
  | .fault _   => none
  | .refused _ => none

theorem next_of {o : Out} {t : State} (h : nextOf o = some t) : o = .next t := by
  cases o <;> simp_all [nextOf]

theorem exists_next_of {o : Out} (h : (nextOf o).isSome = true) : ∃ t, o = .next t := by
  cases o <;> simp_all [nextOf]

/-! Well-formedness. -/

/-- The operands of vector V45. -/
def mixed : Fields :=
  { version := 4, headerLengthWords := 5, typeOfService := 0x10, identification := 0xBEEF, flags := 1,
    fragmentOffset := 0x1234, timeToLive := 64, protocol := 17, source := ⟨10, 0, 0, 1⟩, destination := ⟨10, 0, 0, 2⟩,
    payload := [1, 2, 3, 4, 5] }

/-- A payload of n zero bytes. -/
def zeros (n : Nat) : List Byte := List.replicate n 0

theorem zeros_length (n : Nat) : (zeros n).length = n := List.length_replicate

theorem payloadFits_zeros (n : Nat) : payloadFits (zeros n) = decide (n < 2 ^ 32) := by
  unfold payloadFits
  rw [zeros_length]
  rfl

theorem test_wf_build : (Instr.build mixed).wf = true := by decide

/-- The check of BUILD: a payload length that 32 bits cannot carry (log 3). -/
theorem test_illFormed_build : (Instr.build { mixed with payload := zeros (2 ^ 32) }).wf = false :=
  (payloadFits_zeros (2 ^ 32)).trans (by decide)

/-- The check of BUILD.DEF: the same. -/
theorem test_illFormed_buildDef : (Instr.buildDef {} ⟨192, 0, 2, 1⟩ (zeros (2 ^ 32))).wf = false :=
  (payloadFits_zeros (2 ^ 32)).trans (by decide)

theorem test_wf_largest : (Instr.build { mixed with payload := zeros (2 ^ 32 - 1) }).wf = true :=
  (payloadFits_zeros (2 ^ 32 - 1)).trans (by decide)

/-! Decoding. The records are written out from R59 and the layout of Decode.lean (logs 1 to 3). -/

/-- op 0, form 0, then the bytes of In. -/
theorem test_decode_csum : decode [0b0000000_0, 0x12, 0x34, 0x56] = .ok (.csum [0x12, 0x34, 0x56]) := by decide

/-- op 1, form 0, and the operands of V45 in the order of R59: flags 001 and fragmentOffset 1001000110100 share two bytes. -/
theorem test_decode_build :
    decode [0b0000000_1, 0b00000100, 0b00000101, 0b00010000, 0b10111110, 0b11101111, 0b001_10010, 0b00110100, 0b01000000,
      0b00010001, 10, 0, 0, 1, 10, 0, 0, 2, 0, 0, 0, 5, 1, 2, 3, 4, 5] = .ok (.build mixed) := by decide

/-- op 1, form 1: marks 0 but for headerLengthWords, flags and fragmentOffset. -/
theorem test_decode_buildDef :
    decode [0b0000001_1, 0, 1, 0b00000110, 0, 0, 1, 0b00000_101, 1, 0b000_00001, 0b00000010, 0, 0, 0, 192, 0, 2, 1,
      0, 0, 0, 1, 0xAA] =
      .ok (.buildDef { headerLengthWords := some 6, flags := some 5, fragmentOffset := some 0x0102 } ⟨192, 0, 2, 1⟩ [0xAA]) := by
  decide

/-- op 0, form 1. -/
theorem test_decode_verify : decode [0b0000001_0, 0x45, 0x00] = .ok (.verify [0x45, 0x00]) := by decide

/-- op 1, form 2. -/
theorem test_decode_genseq : decode [0b0000010_1] = .ok .genseq := by decide

theorem test_reject_empty : decode [] = .error .empty := by decide
theorem test_reject_form : decode [0b0000010_0] = .error (.unknownForm .csum 2) := by decide
theorem test_reject_form_build : decode [0b0000011_1] = .error (.unknownForm .build 3) := by decide
theorem test_reject_truncated : decode [1, 4, 5, 0, 0] = .error .truncated := by decide
theorem test_reject_trailing : decode [5, 0] = .error .trailingBytes := by decide
theorem test_reject_length :
    decode [1, 4, 5, 0, 0, 0, 0, 0, 50, 6, 127, 0, 0, 1, 192, 0, 2, 1, 0, 0, 0, 2, 0xAA] = .error .lengthMismatch := by
  decide
theorem test_reject_mark : decode [3, 2] = .error (.badPresenceMark 2) := by decide
theorem test_reject_wide_flags : decode [3, 0, 0, 0, 0, 1, 8] = .error .valueTooWide := by decide

/-- The table's word of CSUM: bit 0 is 0, every other bit 0. -/
theorem test_tableWord_csum : decodeTableWord 8 0 = some (.csum (zeros 21)) := by decide

/-- The table's word of BUILD: bit 0 is 1; the operands are zeros and no payload. -/
theorem test_tableWord_build : decodeTableWord 8 1 = some (.build resetFields) := by decide

/-- The step after such a word is placed runs its instruction: zero bytes checksum to 0xFFFF (R102); version 0 is rejected. -/
theorem test_withFetchWord :
    (nextOf (step (State.reset.withFetchWord 8 0))).map State.delivered = some [.result 0xFFFF] ∧
    (nextOf (step (State.reset.withFetchWord 8 1))).map State.delivered = some [.invalidField] := by decide

/-! Vectors of spec/95_test_vectors.md, each one step from reset. -/

/-- One step from reset with the instruction's record presented. -/
def after (i : Instr) : Out := step (present (encode i) State.reset)

/-- The newest response. -/
def lastResponse : Out → Option Response
  | .next s => s.delivered.head?
  | _       => none

/-- The verdict. -/
def lastVerdict : Out → Option Verdict
  | .next s => s.verdict
  | _       => none

/-- V30: two fold passes. -/
theorem test_csum_two_folds : lastResponse (after (.csum [0xFF, 0xFF, 0xFF, 0xFF, 0x00, 0x01])) = some (.result 0xFFFE) := by
  decide

/-- V24: an odd tail that causes the carry. -/
theorem test_csum_odd_tail_carries : lastResponse (after (.csum [0x12, 0x34, 0x56, 0x78, 0x9A])) = some (.result 0xFD52) := by
  decide

/-- V45: flags and fragmentOffset share byte 6. -/
theorem test_build_mixed : lastResponse (after (.build mixed)) =
    some (.ok [0x45, 0x10, 0x00, 0x19, 0xBE, 0xEF, 0x32, 0x34, 0x40, 0x11, 0x75, 0x9E, 0x0A, 0x00, 0x00, 0x01, 0x0A, 0x00,
      0x00, 0x02, 0x01, 0x02, 0x03, 0x04, 0x05]) := by decide

/-- V78: the low nibble of version 20 is 4, and it is rejected. -/
theorem test_build_rejects_wide_version : lastResponse (after (.build { mixed with version := 20 })) = some .invalidField := by
  decide

/-- V52: a checksum of 0000. -/
theorem test_buildDef_zero_checksum :
    lastResponse (after (.buildDef { identification := some 0x47E0 } ⟨192, 0, 2, 1⟩ [0, 0])) =
    some (.ok [0x45, 0x00, 0x00, 0x16, 0x47, 0xE0, 0x00, 0x00, 0x32, 0x06, 0x00, 0x00, 0x7F, 0x00, 0x00, 0x01, 0xC0, 0x00,
      0x02, 0x01, 0x00, 0x00]) := by decide

/-- V74: 21 is rejected although its low nibble is 5. -/
theorem test_buildDef_rejects_wide_ihl :
    lastResponse (after (.buildDef { headerLengthWords := some 21 } ⟨192, 0, 2, 1⟩ [0, 0])) = some .invalidField := by decide

/-- V90. -/
theorem test_verify_valid :
    lastVerdict (after (.verify [0x45, 0x00, 0x00, 0x16, 0x00, 0x00, 0x00, 0x00, 0x32, 0x06, 0x47, 0xE0, 0x7F, 0x00, 0x00, 0x01,
      0xC0, 0x00, 0x02, 0x01])) = some .valid := by decide

/-- V92: the checksum's bytes swapped. -/
theorem test_verify_invalid :
    lastVerdict (after (.verify [0x45, 0x00, 0x00, 0x16, 0x00, 0x00, 0x00, 0x00, 0x32, 0x06, 0xE0, 0x47, 0x7F, 0x00, 0x00, 0x01,
      0xC0, 0x00, 0x02, 0x01])) = some .invalid := by decide

/-- Reset with a channel to an address, and the writes that fail. -/
def withChannel (peer : Option Ipv4Addr) (failWrites : List Nat) : State :=
  { State.reset with channel := { Channel.reset with peer := peer, failWrites := failWrites } }

/-- P1 for 127.0.0.1: packet 11, its header and its length. -/
theorem test_genseq_last_packet :
    (match exec .genseq (withChannel (some ⟨127, 0, 0, 1⟩) []) with
      | .next s => (s.channel.sent.length, s.channel.sent.getLast?.map (fun p => (p.take 20, p.length)))
      | _       => (0, none)) =
    (12, some ([0x45, 0x00, 0x00, 0x2C, 0x00, 0x00, 0x00, 0x00, 0x32, 0x06, 0x8A, 0xCA, 0x7F, 0x00, 0x00, 0x01, 0x7F, 0x00,
      0x00, 0x01], 44)) := by decide

/-- P1: write number 2 fails; packets 0 and 1 were written, 12 = 3 + 9 requests were not all made. -/
theorem test_genseq_third_write_fails :
    (match exec .genseq (withChannel (some ⟨192, 0, 2, 1⟩) [2]) with
      | .next s => (s.channel.sent.map List.length, s.channel.writes, s.seqEnd)
      | _       => ([], 0, none)) = ([22, 24], 3, some .channelFailure) := by decide

/-! Witnesses. -/

/-- The state n micro-steps into a request accepted after reset. -/
def midway (r : Request) (n : Nat) : State :=
  match run n (accept r State.reset) with
  | .next s => s
  | _       => State.reset

/-- Such a state meets the invariant. -/
theorem midway_inv (r : Request) (n : Nat) : MachineInv (midway r n) := by
  unfold midway
  split
  · rename_i s h
    exact run_inv n _ s (accept_inv r State.reset) h
  · simp [MachineInv, State.reset, NothingPending]

/-- What exec answers on an idle block exists. -/
theorem exec_next_of_idle (r : Request) (s : State) (hb : s.busy = false) : ∃ t, exec (instrOf r) s = .next t := by
  obtain ⟨t, h, _⟩ := perform_idle r s hb
  exact ⟨t, by rw [exec_instrOf]; exact h⟩

/-- The packet of V45. -/
def mixedPacket : List Byte :=
  [0x45, 0x10, 0x00, 0x19, 0xBE, 0xEF, 0x32, 0x34, 0x40, 0x11, 0x75, 0x9E, 0x0A, 0x00, 0x00, 0x01, 0x0A, 0x00, 0x00, 0x02,
    0x01, 0x02, 0x03, 0x04, 0x05]

/-- The state after one BUILD: an idle block whose registers are not those of reset. -/
def used : State := midway (.build mixed) 60

theorem used_idle : used.busy = false ∧ used.delivered = [.ok mixedPacket] ∧ used.hbStep = .payload := by decide

/-- BUILD of V45 is accepted, on a block that is idle after an earlier request. -/
theorem mixed_answers : Answers (.build mixed) used (.ok mixedPacket) :=
  (answers_build mixed used used_idle.1 _).mpr (by decide)

theorem accepted_answers {f : Fields} (h : fieldsValid f = true) : ∃ out, Answers (.build f) used (.ok out) :=
  ⟨headerOf f ++ f.payload, (answers_build f used used_idle.1 _).mpr (by simp [answerTo, h])⟩

theorem mixed_accepts : Accepts mixed := (fieldsValid_iff mixed).mp (by decide)

/-- The hypothesis of the statements that ask for an idle block alone: CsumAnswersInternetChecksum, ChecksumLaws, ExtremeResults,
ChecksumSelfConsistency, CsumEdgeCasesAndKnownVector, VerifyConcludes, BuildAnswersClosedForm, IllegalValuesRaiseInvalidField,
BuildDefFillsDefaults, ResponseIsFunctionOfOperands, HeaderFoldMayNeedTwoPasses, FoldEndsAndHowSoon; both after reset and after an operation. -/
theorem witness_idleBlock : State.reset.busy = false ∧ used.busy = false := by decide

theorem witness_DecodeOfEncodeGivesInstruction : (Instr.build mixed).wf = true ∧ Instr.genseq.wf = true := by decide

theorem witness_EncodeOfDecodeGivesRecord : decode [0, 0x12] = .ok (.csum [0x12]) ∧ decode [5] = .ok .genseq := by decide

theorem witness_FirstBitSelectsOperation : payloadFits mixed.payload = true ∧ payloadFits [] = true := by decide

theorem witness_StepRunsDecodedRequest :
    (present [5] (present [0, 0x12] State.reset)).pending = [0, 0x12] :: [[5]] ∧ decode [0, 0x12] = .ok (.csum [0x12]) := by
  decide

theorem witness_StepWithoutRequest :
    State.reset.pending = [] ∧ State.reset.busy = false ∧
    (present [5, 0] State.reset).pending = [5, 0] :: [] ∧ decode [5, 0] = .error .trailingBytes := by decide

/-- A busy block with nothing waiting: step 4 of a BUILD is next. -/
theorem witness_StepWithoutRequest_busy :
    MachineInv (midway (.build mixed) 3) ∧ (midway (.build mixed) 3).busy = true ∧ (midway (.build mixed) 3).pending = [] :=
  ⟨midway_inv _ 3, by decide⟩

theorem witness_RequestQueueServedInOrder :
    (∀ r ∈ [Request.csum [0x12], Request.build mixed], (instrOf r).wf = true) ∧ used.busy = false ∧
    (present (encode (.build mixed)) (present (encode (.csum [0x12])) used)).pending =
      [Request.csum [0x12], Request.build mixed].map (fun r => encode (instrOf r)) := by decide

/-- A step in the middle of a BUILD with the next record waiting, and the idle block. -/
theorem witness_StepKeepsInvariant :
    MachineInv (midway (.build mixed) 3) ∧ (midway (.build mixed) 3).busy = true ∧
    (∃ t, step (midway (.build mixed) 3) = .next t) ∧ MachineInv State.reset ∧ step State.reset = .next State.reset := by
  refine ⟨midway_inv _ 3, by decide, ?_, by simp [MachineInv, State.reset, NothingPending], next_of (by decide)⟩
  obtain ⟨t, h, _⟩ := finish_completes (midway (.build mixed) 3) (midway_inv _ 3)
  exact ⟨t, h⟩

/-- A micro-step inside a BUILD. -/
theorem witness_StepKeepsInvariant_tick :
    MachineInv (midway (.build mixed) 12) ∧ tick (midway (.build mixed) 12) = .next (midway (.build mixed) 13) :=
  ⟨midway_inv _ 12, next_of (by decide)⟩

theorem witness_EveryInstructionCompletes :
    MachineInv (midway (.csum [0x12, 0x34, 0x56]) 2) ∧ (midway (.csum [0x12, 0x34, 0x56]) 2).busy = true :=
  ⟨midway_inv _ 2, by decide⟩

/-- A CSUM just accepted, its phase set by hand. -/
def csumAt (input : List Byte) (phase : CkPhase) (i acc : Nat) : State :=
  { accept (.csum input) State.reset with
      ckPhase := phase, ckI := i, acc := acc, written := { Written.none with input := true, acc := true } }

/-- A BUILD just accepted, its step set by hand, with no register written. -/
def buildAt (p : HbStep) : State := { accept (.build mixed) State.reset with hbStep := p, written := Written.none }

/-- Step 12 of a BUILD with CK at work on two bytes, its marks set by hand. -/
def step12At (phase : CkPhase) (i acc : Nat) (input : List Byte) (w : Written) : State :=
  { buildAt .checksum with ckPhase := phase, ckI := i, acc := acc, input := input, written := w }

/-- The marks with In written, and ACC written or not. -/
def ckMarks (acc : Bool) : Written := { Written.none with input := true, acc := acc }

theorem witness_ReadBeforeWriteFaults_in :
    (∀ p ∈ [CkPhase.add, .tail],
      CkAtWork (step12At p 0 0 [] Written.none) ∧ (step12At p 0 0 [] Written.none).written.input = false ∧
      CkAtWork { csumAt [0x12] p 0 0 with written := Written.none }) := by
  intro p _
  exact ⟨⟨rfl, Or.inr ⟨rfl, rfl, rfl⟩⟩, rfl, rfl, Or.inl rfl⟩

theorem witness_ReadBeforeWriteFaults_acc :
    CkAtWork (step12At .fold 0 0 [] (ckMarks false)) ∧ CkAtWork { csumAt [0x12] .fold 0 0 with written := ckMarks false } ∧
    (ckMarks false).acc = false ∧ (ckMarks false).input = true ∧
    CkAtWork (step12At .add 0 0 [0x12, 0x34] (ckMarks false)) ∧ 0 + 1 < ([0x12, 0x34] : List Byte).length ∧
    CkAtWork (step12At .tail 0 0 [0x12] (ckMarks false)) ∧ ([0x12] : List Byte) ≠ [] :=
  ⟨⟨rfl, Or.inr ⟨rfl, rfl, rfl⟩⟩, ⟨rfl, Or.inl rfl⟩, rfl, rfl, ⟨rfl, Or.inr ⟨rfl, rfl, rfl⟩⟩, by decide,
    ⟨rfl, Or.inr ⟨rfl, rfl, rfl⟩⟩, by decide⟩

theorem witness_ReadBeforeWriteFaults_hb :
    (∀ p ∈ [HbStep.validate, .byte0, .typeOfService, .totalLength, .identification, .flagsFragment, .timeToLive, .protocol,
        .source, .destination, .checksum, .payload],
      (buildAt p).busy = true ∧ (buildAt p).op = .build ∧ (buildAt p).status = none ∧ (buildAt p).hbStep = p ∧
      (buildAt p).ckPhase = .init ∧ (buildAt p).written.operands = false ∧ (buildAt p).written.totalLength = false) ∧
    (buildAt .payload).written.hbuf[0] = false ∧ (buildAt .payload).written.hbuf[19] = false ∧
    (accept (.build mixed) State.reset).written.operands = true := by decide

theorem witness_ReadBeforeWriteFaults_response :
    CkAtWork (csumAt [] .done 0 0) ∧ CkAtWork (step12At .done 0 0 [] (ckMarks true)) ∧
    (csumAt [] .done 0 0).result = none ∧ (step12At .done 0 0 [] (ckMarks true)).result = none ∧
    ({ buildAt .payload with status := some .ok } : State).out = none :=
  ⟨⟨rfl, Or.inl rfl⟩, ⟨rfl, Or.inr ⟨rfl, rfl, rfl⟩⟩, rfl, rfl, rfl⟩

theorem witness_CsumFrame : used.busy = false ∧ ∃ t, exec (.csum [0x12]) used = .next t :=
  ⟨used_idle.1, exec_next_of_idle (.csum [0x12]) used used_idle.1⟩

/-- One state for every row: no byte, one byte, two bytes; the fold at 0x10000 and at 0xFFFF. -/
theorem witness_CkStepTable :
    (let s := accept (.csum []) State.reset; s.busy = true ∧ s.op = .csum ∧ s.ckPhase = .init) ∧
    (let s := csumAt [0x12, 0x34] .add 0 0;
      s.busy = true ∧ s.op = .csum ∧ s.written.input = true ∧ s.written.acc = true ∧ s.ckPhase = .add ∧
      s.input[s.ckI]? = some 0x12 ∧ s.input[s.ckI + 1]? = some 0x34) ∧
    (let s := csumAt [0x12] .add 0 0; s.written.input = true ∧ s.ckPhase = .add ∧ s.ckI + 1 = s.input.length) ∧
    (let s := csumAt [] .add 0 0; s.written.input = true ∧ s.ckPhase = .add ∧ s.ckI = s.input.length) ∧
    (let s := csumAt [0x12] .tail 0 0;
      s.written.input = true ∧ s.written.acc = true ∧ s.ckPhase = .tail ∧ s.input.getLast? = some 0x12) ∧
    (let s := csumAt [] .fold 0 0x10000; s.written.acc = true ∧ s.ckPhase = .fold ∧ s.acc > 0xFFFF) ∧
    (let s := csumAt [] .fold 0 0xFFFF; s.written.acc = true ∧ s.ckPhase = .fold ∧ s.acc ≤ 0xFFFF) ∧
    (let s := midway (.csum []) 3;
      s.busy = true ∧ s.op = .csum ∧ s.ckPhase = .done ∧ s.result = some 0xFFFF) := by decide

/-- The rows ADD, TAIL and FOLD inside step 12 of V45's BUILD: a pair, no byte left, a sum above and one not above 0xFFFF; and
TAIL, which no header reaches, set by hand. -/
theorem witness_CkStepTable_inBuild :
    (∀ n ∈ [12, 22, 23, 24], (midway (.build mixed) n).busy = true ∧ (midway (.build mixed) n).op = .build ∧
      (midway (.build mixed) n).status = none ∧ (midway (.build mixed) n).hbStep = .checksum ∧
      (midway (.build mixed) n).written.input = true ∧ (midway (.build mixed) n).written.acc = true) ∧
    (midway (.build mixed) 12).ckPhase = .add ∧ (midway (.build mixed) 12).ckI = 0 ∧
    (midway (.build mixed) 22).ckPhase = .add ∧ (midway (.build mixed) 22).ckI = (midway (.build mixed) 22).input.length ∧
    (midway (.build mixed) 23).ckPhase = .fold ∧ (midway (.build mixed) 23).acc = 0x18A60 ∧
    (midway (.build mixed) 24).ckPhase = .fold ∧ (midway (.build mixed) 24).acc = 0x8A61 ∧
    (step12At .tail 0 0 [0x12] (ckMarks true)).input.getLast? = some 0x12 := by decide

theorem witness_FoldEndsAndHowSoon : (0x10000 : Nat) > 0xFFFF ∧ (2 ^ 32 - 1 : Nat) < 2 ^ 32 := by decide

/-- The two words of V22 in either order; a cut after two bytes; an odd length; S positive; S = 0. -/
theorem witness_ChecksumLaws :
    [((0x12 : Byte), (0x34 : Byte)), (0x56, 0x78)].Perm [(0x56, 0x78), (0x12, 0x34)] ∧
    ([0x12, 0x34] : List Byte).length % 2 = 0 ∧ ([0x12] : List Byte).length % 2 = 1 ∧
    0 < exactWordSum ([0x12, 0x34] ++ [0x56]) ∧ exactWordSum ([0x00, 0x00] ++ []) = 0 := by
  refine ⟨by decide, by decide, by decide, ?_, ?_⟩ <;> rw [exactWordSum_eq] <;> decide

theorem witness_ExtremeResults :
    (0 : Nat) < 65535 ∧ Accepts mixed ∧ Accepts { mixed with headerLengthWords := 15 } ∧ Answers (.build mixed) used (.ok mixedPacket) :=
  ⟨by decide, mixed_accepts, (fieldsValid_iff _).mp (by decide), mixed_answers⟩

/-- The shortest sequence with bytes 10 and 11, and a packet. -/
theorem witness_ChecksumSelfConsistency :
    (zeros 12).length % 2 = 0 ∧ 12 ≤ (zeros 12).length ∧ (zeros 12)[10]? = some 0 ∧ (zeros 12)[11]? = some 0 ∧
    Answers (.csum (zeros 12)) used (.result 0xFFFF) ∧ Answers (.build mixed) used (.ok mixedPacket) :=
  ⟨by decide, by decide, by decide, by decide, (answers_csum _ _ used_idle.1 _).mpr (by decide), mixed_answers⟩

theorem witness_LongInputsKeepEveryCarry :
    0 < 65538 ∧ used.busy = false ∧ ([0xFF, 0xFF] : List Byte).length % 2 = 0 ∧ ([] : List Byte).length % 2 = 0 := by decide

theorem witness_VerifyFrame : used.busy = false ∧ ∃ t, exec (.verify [0x12]) used = .next t := by
  obtain ⟨t, _, h, _⟩ := exec_verify [0x12] used used_idle.1
  exact ⟨used_idle.1, _, h⟩

/-- The two sides of every bound: version 3, 4, 5; headerLengthWords 4, 5, 15, 16; payloadLength 65515, 65516. -/
theorem witness_BuildAnswersClosedForm :
    ({ mixed with version := 3 } : Fields).version ≠ 4 ∧ ({ mixed with version := 5 } : Fields).version ≠ 4 ∧
    ({ mixed with headerLengthWords := 4 } : Fields).headerLengthWords.toNat < 5 ∧
    ({ mixed with headerLengthWords := 16 } : Fields).headerLengthWords.toNat > 15 ∧
    ({ mixed with payload := zeros 65516 } : Fields).payload.length > 65515 ∧
    (∀ l : Byte, l = 5 ∨ l = 15 →
      let f := { mixed with headerLengthWords := l, payload := zeros 65515 }
      ¬(f.version ≠ 4 ∨ f.headerLengthWords.toNat < 5 ∨ f.headerLengthWords.toNat > 15 ∨ f.payload.length > 65515)) := by
  refine ⟨by decide, by decide, by decide, by decide, ?_, ?_⟩
  · show (zeros 65516).length > 65515
    rw [zeros_length]
    decide
  · rintro l (rfl | rfl) <;> show ¬(_ ∨ _ ∨ _ ∨ (zeros 65515).length > 65515) <;> rw [zeros_length] <;> decide

/-- Each cause of R120 alone. -/
theorem witness_InvalidFieldEntry :
    used.busy = false ∧ ¬Accepts { mixed with version := 20 } ∧ ¬Accepts { mixed with headerLengthWords := 4 } ∧
    ¬Accepts { mixed with headerLengthWords := 16 } ∧ ¬Accepts { mixed with payload := zeros 65516 } := by
  refine ⟨by decide, ?_, ?_, ?_, ?_⟩ <;> rintro ⟨h1, h2, h3, h4⟩
  · exact absurd h1 (by decide)
  · exact absurd h2 (by decide)
  · exact absurd h3 (by decide)
  · have h5 : (zeros 65516).length ≤ 65515 := h4
    rw [zeros_length] at h5
    omega

theorem witness_BuildFrame : used.busy = false ∧ Accepts mixed ∧ ∃ t, exec (.build mixed) used = .next t :=
  ⟨used_idle.1, mixed_accepts, exec_next_of_idle (.build mixed) used used_idle.1⟩

theorem witness_AccessorsGiveOperandsBack : used.busy = false ∧ Answers (.build mixed) used (.ok mixedPacket) :=
  ⟨used_idle.1, mixed_answers⟩

theorem witness_PacketLength : used.busy = false ∧ Answers (.build mixed) used (.ok mixedPacket) ∧
    ∃ out', Answers (.build { mixed with headerLengthWords := 15 }) used (.ok out') :=
  ⟨used_idle.1, mixed_answers, accepted_answers (by decide)⟩

theorem witness_FieldsAtWireBitOffsets : used.busy = false ∧ Answers (.build mixed) used (.ok mixedPacket) :=
  ⟨used_idle.1, mixed_answers⟩

/-- A request with the least and one with the greatest accepted header length, and one just below and above. -/
theorem witness_BuildStepOneValidates :
    (∀ l : Byte, let s := accept (.build { mixed with headerLengthWords := l }) State.reset;
      s.busy = true ∧ s.op = .build ∧ s.status = none ∧ s.hbStep = .validate ∧ s.written.operands = true) ∧
    (∀ l ∈ [(5 : Byte), 15], fieldsValid { mixed with headerLengthWords := l } = true) ∧
    (∀ l ∈ [(4 : Byte), 16], fieldsValid { mixed with headerLengthWords := l } = false) := by decide

/-- The steps 2 to 11 of V45, each where it is about to be done. -/
theorem witness_BuildStepsTwoToElevenPack :
    (∀ n ∈ List.range' 1 10, let s := midway (.build mixed) n;
      s.busy = true ∧ s.op = .build ∧ s.status = none ∧ s.written.operands = true ∧ s.written.totalLength = true ∧
      s.operands = mixed ∧ s.hbStep.number = n + 1) ∧ fieldsValid mixed = true := by decide

theorem witness_WriteByteWritesOneByte : (0 < 20 ∧ 19 < 20) ∧ (midway (.build mixed) 11).hbStep ≠ .payload := by decide

theorem witness_BuildStepTwelveFillsChecksum :
    let s := midway (.build mixed) 11;
    MachineInv s ∧ s.busy = true ∧ s.op = .build ∧ s.status = none ∧ s.hbStep = .checksum ∧ s.ckPhase = .init :=
  ⟨midway_inv _ 11, by decide⟩

/-- CK done with the checksum of V45, not yet written. -/
theorem witness_BuildStepTwelveFillsChecksum_done :
    let s := midway (.build mixed) 25;
    s.busy = true ∧ s.op = .build ∧ s.status = none ∧ s.hbStep = .checksum ∧ s.ckPhase = .done ∧ s.result = some 0x759E := by
  decide

theorem witness_BuildStepThirteenResponds :
    let s := midway (.build mixed) 26;
    MachineInv s ∧ s.busy = true ∧ s.op = .build ∧ s.status = none ∧ s.hbStep = .payload :=
  ⟨midway_inv _ 26, by decide⟩

theorem witness_ChecksumTakenOverFinishedHeader :
    let s := midway (.build mixed) 11;
    MachineInv s ∧ s.busy = true ∧ s.op = .build ∧ s.status = none ∧ s.hbStep = .checksum ∧ s.ckPhase = .init :=
  ⟨midway_inv _ 11, by decide⟩

/-- A micro-step that does not end the operation, and the one that does. -/
theorem witness_NothingLeavesBeforeTheResponse :
    MachineInv (midway (.build mixed) 25) ∧ MachineInv (midway (.build mixed) 27) ∧
    (midway (.build mixed) 25).busy = true ∧ tick (midway (.build mixed) 25) = .next (midway (.build mixed) 26) ∧
    (midway (.build mixed) 26).busy = true ∧
    (midway (.build mixed) 27).busy = true ∧ tick (midway (.build mixed) 27) = .next (midway (.build mixed) 28) ∧
    (midway (.build mixed) 28).busy = false :=
  ⟨midway_inv _ 25, midway_inv _ 27, by decide, next_of (by decide), by decide, by decide, next_of (by decide), by decide⟩

theorem witness_BuildStepsAdvanceByOne :
    (midway (.build mixed) 4).busy = true ∧ (midway (.build mixed) 4).op = .build ∧
    tick (midway (.build mixed) 4) = .next (midway (.build mixed) 5) :=
  ⟨by decide, by decide, next_of (by decide)⟩

theorem witness_PayloadNeverEntersHeader :
    used.busy = false ∧ ([9, 9, 9, 9, 9] : List Byte).length = mixed.payload.length ∧
    Answers (.build mixed) used (.ok mixedPacket) ∧
    ∃ out', Answers (.build { mixed with payload := [9, 9, 9, 9, 9] }) used (.ok out') :=
  ⟨used_idle.1, rfl, mixed_answers, accepted_answers (by decide)⟩

theorem witness_HeaderLengthChangesOnlyByteZeroAndChecksum :
    used.busy = false ∧ 6 ≤ (6 : Byte).toNat ∧ (15 : Byte).toNat ≤ 15 ∧
    Answers (.build { mixed with headerLengthWords := 5 }) used (.ok mixedPacket) :=
  ⟨used_idle.1, by decide, by decide, mixed_answers⟩

theorem witness_BuildDefFillsDefaults : used.busy = false ∧ (zeros 65516).length > 65515 ∧ (zeros 65515).length ≤ 65515 := by
  refine ⟨by decide, ?_, ?_⟩ <;> rw [zeros_length]
  decide

/-- Two idle states with unlike registers and the same view for the host. -/
theorem witness_ResponsesIgnoreWorkingRegisters :
    used.busy = false ∧ { used with acc := 7, hbStep := .source, operands := resetFields }.busy = false ∧
    hostView used = hostView { used with acc := 7, hbStep := .source, operands := resetFields } := by decide

theorem witness_BusyRequestIsTakenAfterwards :
    MachineInv (midway (.csum [0x12, 0x34, 0x56]) 2) ∧ (midway (.csum [0x12, 0x34, 0x56]) 2).busy = true :=
  ⟨midway_inv _ 2, by decide⟩

theorem witness_ResetAcceptsFirstRequest : (instrOf (.build mixed)).wf = true ∧ (instrOf (.csum [])).wf = true := by decide

/-- Twelve micro-steps into a BUILD on a block that has answered before. -/
theorem witness_ResetDiscardsOperation :
    used.busy = false ∧ ∃ m, run 12 (accept (.build mixed) used) = .next m ∧ m.busy = true := by
  refine ⟨by decide, ?_⟩
  obtain ⟨m, h⟩ := exists_next_of (o := run 12 (accept (.build mixed) used)) (by decide)
  have hb : (nextOf (run 12 (accept (.build mixed) used))).map State.busy = some true := by decide
  rw [h] at hb
  exact ⟨m, h, by simpa [nextOf] using hb⟩

/-- A channel to 192.0.2.1 that has failed once long ago. -/
def line : State := withChannel (some ⟨192, 0, 2, 1⟩) [40]

theorem witness_GenseqWritesTwelvePackets :
    line.busy = false ∧ line.channel.peer = some ⟨192, 0, 2, 1⟩ ∧
    (∀ j, j < 12 → line.channel.writes + j ∉ line.channel.failWrites) := by decide

theorem witness_GenseqLengthsAndChecksums :
    line.busy = false ∧ line.channel.peer = some ⟨192, 0, 2, 1⟩ ∧
    (∀ j, j < 12 → line.channel.writes + j ∉ line.channel.failWrites) ∧ ∃ t, exec .genseq line = .next t := by
  refine ⟨by decide, by decide, by decide, ?_⟩
  obtain ⟨t, h, _⟩ := genLoop_completes ⟨192, 0, 2, 1⟩ 12 0 line (by decide)
    (by simp [MachineInv, line, withChannel, State.reset, NothingPending]) (by decide) (by decide)
  exact ⟨t, by rw [exec_genseq ⟨192, 0, 2, 1⟩ line (by decide) (by decide)]; exact h⟩

/-- The first write fails; the last one does. -/
theorem witness_GenseqStopsAtFailedWrite :
    (∀ j ∈ [0, 11], let s := withChannel (some ⟨192, 0, 2, 1⟩) [j];
      s.busy = false ∧ s.channel.peer = some ⟨192, 0, 2, 1⟩ ∧ j < 12 ∧ s.channel.writes + j ∈ s.channel.failWrites ∧
      (∀ i, i < j → s.channel.writes + i ∉ s.channel.failWrites)) := by decide

theorem witness_GenseqWithoutPeer : (withChannel none []).busy = false ∧ (withChannel none []).channel.peer = none := by decide

theorem witness_GenseqFrame : MachineInv line ∧ line.busy = false ∧ ∃ t, exec .genseq line = .next t :=
  ⟨by simp [MachineInv, line, withChannel, State.reset, NothingPending], by decide,
    witness_GenseqLengthsAndChecksums.2.2.2⟩

theorem witness_ReadsChangeNoLaterRequest :
    line.busy = false ∧
    { line with channel := { line.channel with received := [[1, 2]], reads := 3, failReads := [0] } } ≠ line := by decide

end Sys2Proof.Tests
end

section
/-! PROOFS. The writes of HBUF and the order of its bits (00_scope.md R7, R8; 30_encoding.md R50). -/

namespace Sys2Proof.Machine

/-! One byte of HBUF (R7, 10_state.md R13, R14). -/

theorem writeByte_hbuf_getElem (k : Nat) (v : Byte) (s : State) (j : Nat) (h : j < Config.hdrLen) :
    (writeByte k v s).hbuf[j] = if j = k then v else s.hbuf[j] := by
  simp [Vector.getElem_setIfInBounds, eq_comm]

theorem writeByte_written_hbuf_getElem (k : Nat) (v : Byte) (s : State) (j : Nat) (h : j < Config.hdrLen) :
    (writeByte k v s).written.hbuf[j] = if j = k then true else s.written.hbuf[j] := by
  simp [Vector.getElem_setIfInBounds, eq_comm]

theorem HbStep.number_next {p : HbStep} (h : p ≠ .payload) : p.next.number = p.number + 1 := by
  cases p with
  | payload => exact absurd rfl h
  | _ => rfl

/-! Fields of the wire as bytes, words and addresses, and as parts of them. -/

theorem wireField_word (h : List Byte) (k : Nat) : wireField h (8 * k) 16 = (headerWord h k).toNat := by
  rw [wireField_add h (8 * k) 8 8, wireField_byte, show 8 * k + 8 = 8 * (k + 1) by ring, wireField_byte]
  exact (word_toNat _ _).symm

theorem wireField_addr (h : List Byte) (k : Nat) :
    wireField h (8 * k) 32 = nat32 (headerByte h k) (headerByte h (k + 1)) (headerByte h (k + 2)) (headerByte h (k + 3)) := by
  rw [wireField_add h (8 * k) 16 16, wireField_word, show 8 * k + 16 = 8 * (k + 2) by ring, wireField_word]
  simp only [headerWord, word_toNat, nat32]
  ring

/-- Two fields next to each other are the quotient and the remainder of the field they make up. -/
theorem wireField_split {h : List Byte} {w m n a b : Nat} (hb : b < 2 ^ n)
    (hab : wireField h w (m + n) = a * 2 ^ n + b) : wireField h w m = a ∧ wireField h (w + m) n = b := by
  have hlow := wireField_lt h (w + m) n
  rw [wireField_add] at hab
  constructor
  · have := congrArg (· / 2 ^ n) hab
    simpa [Nat.mul_add_div, Nat.div_eq_of_lt, hb, hlow, mul_comm _ (2 ^ n)] using this
  · have := congrArg (· % 2 ^ n) hab
    simpa [Nat.mul_add_mod, Nat.mod_eq_of_lt, hb, hlow, mul_comm _ (2 ^ n)] using this

/-! The fields of the header with any checksum, whatever follows it (R50). -/

/-- Byte 0 of an accepted header: version 4 above the header length (40_header_builder.md R72). -/
theorem byte0_toNat {l : Byte} (hl : l.toNat ≤ 15) : (0x40 ||| l : Byte).toNat = 4 * 2 ^ 4 + l.toNat := by
  rw [BitVec.toNat_or]
  exact (Nat.shiftLeft_add_eq_or_of_lt (i := 4) (by omega) 4).symm

theorem wireField_version_ihl {f : Fields} (hf : Accepts f) (c : Word) (p : List Byte) :
    wireField (headerWith f c ++ p) 0 4 = f.version.toNat ∧
      wireField (headerWith f c ++ p) 4 4 = f.headerLengthWords.toNat := by
  obtain ⟨hv, -, hl, -⟩ := hf
  rw [hv]
  exact wireField_split (by omega) ((wireField_byte _ 0).trans (byte0_toNat hl))

theorem wireField_totalLength {f : Fields} (hf : fieldsValid f = true) (c : Word) (p : List Byte) :
    wireField (headerWith f c ++ p) 16 16 = 20 + f.payloadLength := by
  have hw : headerWord (headerWith f c ++ p) 2 = BitVec.ofNat 16 (20 + f.payload.length) := word_hiByte_loByte _
  rw [wireField_word _ 2, hw, totalLength_toNat hf, Fields.payloadLength]

theorem wireField_identification (f : Fields) (c : Word) (p : List Byte) :
    wireField (headerWith f c ++ p) 32 16 = f.identification.toNat := by
  have hw : headerWord (headerWith f c ++ p) 4 = f.identification := word_hiByte_loByte _
  rw [wireField_word _ 4, hw]

theorem wireField_flags_fragment (f : Fields) (c : Word) (p : List Byte) :
    wireField (headerWith f c ++ p) 48 3 = f.flags.toNat ∧
      wireField (headerWith f c ++ p) 51 13 = f.fragmentOffset.toNat := by
  have hw : headerWord (headerWith f c ++ p) 6 = flagsFragment f.flags f.fragmentOffset := word_hiByte_loByte _
  apply wireField_split f.fragmentOffset.isLt
  rw [wireField_word _ 6, hw]
  exact flagsFragment_toNat _ _

end Sys2Proof.Machine

open Sys2Proof Sys2Proof.Machine

/-- Settles O30: bytes, words and addresses of the wire are the fields' own values, and the two pairs of fields that share a byte
or a word are its quotient and remainder. -/
theorem fieldsAtWireBitOffsets : Obligations.FieldsAtWireBitOffsets := by
  intro f s out hb ha
  obtain ⟨hv, rfl⟩ := answers_build_ok hb ha
  obtain ⟨hver, hihl⟩ := wireField_version_ihl ((fieldsValid_iff f).mp hv) (checksumOf (headerWith f 0)) f.payload
  obtain ⟨hflags, hfrag⟩ := wireField_flags_fragment f (checksumOf (headerWith f 0)) f.payload
  exact ⟨hver, hihl, wireField_byte _ 1, wireField_totalLength hv _ _, wireField_identification f _ _, hflags, hfrag,
    wireField_byte _ 8, wireField_byte _ 9, wireField_word _ 10, wireField_addr _ 12, wireField_addr _ 16⟩

/-- Settles O33: the vectors of bytes and of marks are each set at `k` alone, and every step but the last has the next number
after it. -/
theorem writeByteWritesOneByte : Obligations.WriteByteWritesOneByte := by
  refine ⟨fun k v s _ => ⟨writeByte k v s, rfl, fun j hj => ?_, rfl⟩, fun s hs => ⟨HbStep.number_next hs, rfl⟩⟩
  exact ⟨writeByte_hbuf_getElem k v s j hj, writeByte_written_hbuf_getElem k v s j hj⟩

end

section
/-! PROOFS. The state between and inside operations (spec/10_state.md): the guarded reads, the steps of HB, what `exec` does on
an idle and on a busy block, and the invariant. -/

namespace Sys2Proof.Machine

/-! Guarded reads (10_state.md R21): the fault of a register that is not written, and what a read that goes on has found. -/

variable {s t : State}

theorem withOperands_unwritten {k : Fields → Out} (h : s.written.operands = false) :
    withOperands s k = .fault (.readBeforeWrite .operands) := by simp [withOperands, h]

theorem withInput_unwritten {k : List Byte → Out} (h : s.written.input = false) :
    withInput s k = .fault (.readBeforeWrite .input) := by simp [withInput, h]

theorem withAcc_unwritten {k : Nat → Out} (h : s.written.acc = false) :
    withAcc s k = .fault (.readBeforeWrite .acc) := by simp [withAcc, h]

theorem withTotalLength_unwritten {k : Word → Out} (h : s.written.totalLength = false) :
    withTotalLength s k = .fault (.readBeforeWrite .totalLength) := by simp [withTotalLength, h]

/-- One byte that is not written is enough. -/
theorem withHbuf_unwritten {k : List Byte → Out} (h : ∃ j, ∃ hj : j < 20, s.written.hbuf[j] = false) :
    withHbuf s k = .fault (.readBeforeWrite .hbuf) := by
  obtain ⟨j, hj, hw⟩ := h
  have hall : s.written.hbuf.toList.all id = false :=
    List.all_eq_false.mpr ⟨s.written.hbuf[j], by simp, by simp [hw]⟩
  simp [withHbuf, hall]

theorem withResult_none {k : Word → Out} (h : s.result = none) : withResult s k = .fault (.readBeforeWrite .result) := by
  simp [withResult, h]

theorem withInput_written {k : List Byte → Out} (h : s.written.input = true) : withInput s k = k s.input := by
  simp [withInput, h]

theorem withOperands_written {k : Fields → Out} (h : s.written.operands = true) : withOperands s k = k s.operands := by
  simp [withOperands, h]

theorem withByte_getElem {input : List Byte} {i : Nat} (k : Byte → Out) (h : i < input.length) :
    withByte input i k = k input[i] := by simp [withByte, h]

/-- A guard that lets the machine go on holds. -/
theorem next_of_guard {c : Prop} [Decidable c] {o : Out} {r : Fault} (h : (if c then o else .fault r) = .next t) :
    o = .next t := by
  split at h
  · exact h
  · contradiction

theorem withOperands_eq_next {k : Fields → Out} (h : withOperands s k = .next t) : k s.operands = .next t :=
  next_of_guard h

theorem withTotalLength_eq_next {k : Word → Out} (h : withTotalLength s k = .next t) : k s.totalLength = .next t :=
  next_of_guard h

theorem withHbuf_eq_next {k : List Byte → Out} (h : withHbuf s k = .next t) : k s.hbuf.toList = .next t :=
  next_of_guard h

theorem withResult_eq_next {k : Word → Out} (h : withResult s k = .next t) : ∃ c, k c = .next t := by
  unfold withResult at h
  split at h
  · exact ⟨_, h⟩
  · contradiction

/-! Which unit a micro-step is (20_memory.md R42, 41_checksum.md R108). -/

theorem tick_idle (hb : s.busy = false) : tick s = .next s := by simp [tick, hb]

theorem tick_build (hb : s.busy = true) (ho : s.op = .build) : tick s = buildTick s := by simp [tick, hb, ho]

/-- A BUILD with no status pending is in one of the steps of HB. -/
theorem tick_hb (hb : s.busy = true) (ho : s.op = .build) (hst : s.status = none) : tick s = hbTick s := by
  simp [tick, hb, ho, buildTick, hst]

/-- In DONE the result is taken, by the delivery of a CSUM and by step 12 of a BUILD. -/
theorem tick_done (hc : CkAtWork s) (hd : s.ckPhase = .done) : ∃ k, tick s = withResult s k := by
  obtain ⟨hb, ho | ⟨ho, hst, hp⟩⟩ := hc
  · exact ⟨_, by simp only [tick, hb, if_true, ho, csumTick, hd]; rfl⟩
  · exact ⟨_, by simp only [tick_hb hb ho hst, hbTick, hp, hbChecksum, hd]; rfl⟩

theorem tick_add (hc : CkAtWork s) (hp : s.ckPhase = .add) : tick s = ckAdd s := by
  rw [tick_ckAtWork s hc (by simp [hp]) (by simp [hp]), ckTick, hp]

theorem tick_tail (hc : CkAtWork s) (hp : s.ckPhase = .tail) : tick s = ckTail s := by
  rw [tick_ckAtWork s hc (by simp [hp]) (by simp [hp]), ckTick, hp]

theorem tick_fold (hc : CkAtWork s) (hp : s.ckPhase = .fold) : tick s = ckFold s := by
  rw [tick_ckAtWork s hc (by simp [hp]) (by simp [hp]), ckTick, hp]

/-- Every step of HB but 4, 9 and 12 starts with a read of the operand latches. -/
theorem hbTick_reads_operands (ht : s.hbStep ≠ .totalLength) (hp : s.hbStep ≠ .placeholder) (hc : s.hbStep ≠ .checksum) :
    ∃ k, hbTick s = withOperands s k := by
  unfold hbTick
  cases h : s.hbStep with
  | totalLength => exact absurd h ht
  | placeholder => exact absurd h hp
  | checksum    => exact absurd h hc
  | _           => exact ⟨_, rfl⟩

/-! Micro-steps that read a register that is not written (R21; log 6). -/

theorem tick_input_unwritten (hc : CkAtWork s) (hw : s.written.input = false) (hp : s.ckPhase ∈ [CkPhase.add, .tail]) :
    tick s = .fault (.readBeforeWrite .input) := by
  obtain hp | hp : s.ckPhase = .add ∨ s.ckPhase = .tail := by simpa using hp
  · rw [tick_add hc hp, ckAdd, withInput_unwritten hw]
  · rw [tick_tail hc hp, ckTail, withInput_unwritten hw]

theorem tick_fold_acc_unwritten (hc : CkAtWork s) (hw : s.written.acc = false) (hp : s.ckPhase = .fold) :
    tick s = .fault (.readBeforeWrite .acc) := by
  rw [tick_fold hc hp, ckFold, withAcc_unwritten hw]

/-- In ADD the pair of bytes is read first. -/
theorem tick_add_acc_unwritten (hc : CkAtWork s) (hw : s.written.acc = false) (hi : s.written.input = true)
    (hp : s.ckPhase = .add) (hl : s.ckI + 1 < s.input.length) : tick s = .fault (.readBeforeWrite .acc) := by
  rw [tick_add hc hp, ckAdd, withInput_written hi, if_pos hl, withByte_getElem _ (Nat.lt_of_succ_lt hl),
    withByte_getElem _ hl, withAcc_unwritten hw]

/-- In TAIL the last byte is read first. -/
theorem tick_tail_acc_unwritten (hc : CkAtWork s) (hw : s.written.acc = false) (hi : s.written.input = true)
    (hp : s.ckPhase = .tail) (hne : s.input ≠ []) : tick s = .fault (.readBeforeWrite .acc) := by
  have hl : s.input.length - 1 < s.input.length := Nat.sub_one_lt (List.length_pos_iff.mpr hne).ne'
  rw [tick_tail hc hp, ckTail, withInput_written hi, withByte_getElem _ hl, withAcc_unwritten hw]

theorem hbTick_operands_unwritten (hw : s.written.operands = false)
    (hp : s.hbStep ∈ [HbStep.validate, .byte0, .typeOfService, .identification, .flagsFragment, .timeToLive, .protocol,
      .source, .destination, .payload]) : hbTick s = .fault (.readBeforeWrite .operands) := by
  obtain ⟨k, hk⟩ : ∃ k, hbTick s = withOperands s k := by
    apply hbTick_reads_operands <;> intro h <;> simp [h] at hp
  rw [hk, withOperands_unwritten hw]

theorem hbTick_totalLength_unwritten (hw : s.written.totalLength = false) (hp : s.hbStep = .totalLength) :
    hbTick s = .fault (.readBeforeWrite .totalLength) := by
  simp only [hbTick, hp, withTotalLength_unwritten hw]

/-- Step 12 reads `HBUF` when CK starts. -/
theorem hbTick_checksum_hbuf_unwritten (hw : ∃ j, ∃ hj : j < 20, s.written.hbuf[j] = false) (hp : s.hbStep = .checksum)
    (hi : s.ckPhase = .init) : hbTick s = .fault (.readBeforeWrite .hbuf) := by
  simp only [hbTick, hp, hbChecksum, hi, withHbuf_unwritten hw]

/-- Step 13 reads `HBUF` after the operand latches. -/
theorem hbTick_payload_hbuf_unwritten (hw : ∃ j, ∃ hj : j < 20, s.written.hbuf[j] = false) (hp : s.hbStep = .payload)
    (ho : s.written.operands = true) : hbTick s = .fault (.readBeforeWrite .hbuf) := by
  simp only [hbTick, hp, withOperands_written ho, hbPayload, withHbuf_unwritten hw]

theorem tick_done_result_none (hc : CkAtWork s) (hp : s.ckPhase = .done) (hr : s.result = none) :
    tick s = .fault (.readBeforeWrite .result) := by
  obtain ⟨k, hk⟩ := tick_done hc hp
  rw [hk, withResult_none hr]

theorem tick_delivery_out_none (hb : s.busy = true) (ho : s.op = .build) (hst : s.status = some .ok) (hn : s.out = none) :
    tick s = .fault (.readBeforeWrite .out) := by
  simp only [tick_build hb ho, buildTick, hst, hn]

/-! The steps of HB (R13). -/

theorem HbStep.number_bounds (p : HbStep) : 1 ≤ p.number ∧ p.number ≤ 13 := by cases p <;> decide

/-- `HB.step` stops at 13 and advances by one before it. -/
theorem HbStep.number_next_le (p : HbStep) : p.next.number = p.number ∨ p.next.number = p.number + 1 := by
  by_cases h : p = .payload
  · exact Or.inl (by rw [h]; rfl)
  · exact Or.inr (HbStep.number_next h)

/-- What every micro-step of a BUILD does to `HB.step` and the operand latches. -/
def StaysOrAdvances (s t : State) : Prop := (t.hbStep = s.hbStep ∨ t.hbStep = s.hbStep.next) ∧ t.operands = s.operands

theorem StaysOrAdvances.advance {u : State} (hs : u.hbStep = s.hbStep) (ho : u.operands = s.operands) :
    StaysOrAdvances s (advance u) := ⟨Or.inr (by simp [hs]), ho⟩

theorem hbChecksum_staysOrAdvances (h : hbChecksum s = .next t) : StaysOrAdvances s t := by
  have hck {u : State} (hu : ckTick u = .next t) (hsu : u.hbStep = s.hbStep ∧ u.operands = s.operands) :
      StaysOrAdvances s t :=
    ⟨Or.inl ((ckTick_leaves_hb hu).1.trans hsu.1), (ckTick_leaves_hb hu).2.trans hsu.2⟩
  unfold hbChecksum at h
  split at h
  · exact hck (withHbuf_eq_next h) ⟨rfl, rfl⟩
  · obtain ⟨c, hc⟩ := withResult_eq_next h
    cases hc
    exact .advance (by simp) (by simp)
  all_goals exact hck h ⟨rfl, rfl⟩

theorem hbTick_staysOrAdvances (h : hbTick s = .next t) : StaysOrAdvances s t := by
  unfold hbTick at h
  cases hp : s.hbStep <;> simp only [hp] at h
  case validate =>
    cases withOperands_eq_next h
    unfold hbValidate
    split
    · exact .advance (by simp) (by simp)
    · exact ⟨Or.inl rfl, rfl⟩
  case totalLength =>
    cases withTotalLength_eq_next h
    exact .advance (by simp) (by simp)
  case placeholder =>
    cases h
    exact .advance (by simp) (by simp)
  case checksum => exact hbChecksum_staysOrAdvances h
  case payload =>
    cases withHbuf_eq_next (withOperands_eq_next h)
    exact ⟨Or.inl rfl, rfl⟩
  all_goals
    cases withOperands_eq_next h
    exact .advance (by simp) (by simp)

theorem buildTick_staysOrAdvances (h : buildTick s = .next t) : StaysOrAdvances s t := by
  unfold buildTick at h
  split at h
  · cases h
    exact ⟨Or.inl rfl, rfl⟩
  · cases h
    exact ⟨Or.inl rfl, rfl⟩
  · contradiction
  · exact hbTick_staysOrAdvances h

/-! An instruction on a busy block (R20). -/

/-- Every instruction finishes the operation in progress first, and does then what it does from there. -/
theorem exec_eq_of_finish {u : State} (i : Instr) (h : finish s = .next u) (hb : u.busy = false) : exec i s = exec i u := by
  have hp (r : Request) : perform r s = perform r u := perform_eq_of_finish h hb
  cases i with
  | csum input                     => exact hp (.csum input)
  | build f                        => exact hp (.build f)
  | buildDef o destination payload => exact hp (.build (applyDefaults o destination payload))
  | verify input                   => simp [exec, execVerify, hp]
  | genseq                         => simp [exec, execGenseq, h, hb]

/-! An instruction on an idle block. -/

/-- What a write of GENSEQ can do: go on with the channel after it, or end the sequence (42_generation_sequence.md R114,
R117). -/
theorem writePacket_eq_next {k : State → Out} (h : writePacket s k = .next t) :
    ∃ c, k { s with channel := c } = .next t ∨ t = endSequence .channelFailure { s with channel := c } := by
  unfold writePacket at h
  split at h
  · split at h
    · exact ⟨_, Or.inl h⟩
    · cases h
      exact ⟨_, Or.inr rfl⟩
  · exact ⟨s.channel, Or.inl h⟩

/-- `t` is idle, and has no response pending if `s` met the invariant. -/
def IdleAfter (s t : State) : Prop := t.busy = false ∧ (MachineInv s → MachineInv t)

theorem IdleAfter.endSequence (hb : s.busy = false) (e : SeqEnd) : IdleAfter s (endSequence e s) :=
  ⟨hb, fun hi => inv_endSequence hi hb e⟩

/-- The loop of GENSEQ leaves the block idle, whether a write fails or not. -/
theorem genLoop_idleAfter (dst : Ipv4Addr) (left k : Nat) (hb : s.busy = false) (h : genLoop dst left k s = .next t) :
    IdleAfter s t := by
  induction left generalizing k s with
  | zero =>
    cases h
    exact .endSequence hb .completed
  | succ left ih =>
    obtain ⟨u, hu, hw⟩ := andThen_eq_next h
    obtain ⟨v, hv, hinv, hidle, -⟩ := perform_idle (.build (genFields dst k)) s hb
    cases hu.symm.trans hv
    obtain ⟨c, hc | rfl⟩ := writePacket_eq_next hw
    · obtain ⟨h1, h2⟩ := ih (s := { u with channel := c }) (k + 1) hidle hc
      exact ⟨h1, fun _ => h2 (inv_channel hinv hidle c)⟩
    · exact ⟨hidle, fun _ => inv_endSequence (inv_channel hinv hidle c) hidle .channelFailure⟩

theorem inv_verdict (h : MachineInv s) (hb : s.busy = false) (v : Option Verdict) : MachineInv { s with verdict := v } := by
  simpa [MachineInv, hb, NothingPending] using h

/-- Which records wait is no part of the invariant. -/
theorem inv_pending (h : MachineInv s) (rest : List (List Byte)) : MachineInv { s with pending := rest } := h

theorem perform_idleAfter (r : Request) (hb : s.busy = false) : ∃ t, perform r s = .next t ∧ IdleAfter s t := by
  obtain ⟨t, ht, hinv, hidle, -⟩ := perform_idle r s hb
  exact ⟨t, ht, hidle, fun _ => hinv⟩

/-- Every instruction completes on an idle block, whatever its registers hold. -/
theorem exec_idle (i : Instr) (hb : s.busy = false) : ∃ t, exec i s = .next t ∧ IdleAfter s t := by
  cases i with
  | csum input                     => exact perform_idleAfter (.csum input) hb
  | build f                        => exact perform_idleAfter (.build f) hb
  | buildDef o destination payload => exact perform_idleAfter (.build (applyDefaults o destination payload)) hb
  | verify input                   =>
    obtain ⟨t, ht, hv, -⟩ := exec_verify input s hb
    obtain ⟨u, hu, hidle, hinv⟩ := perform_idleAfter (.csum input) hb
    cases hu.symm.trans ht
    exact ⟨_, hv, hidle, fun hi => inv_verdict (hinv hi) hidle _⟩
  | genseq                         =>
    cases hpeer : s.channel.peer with
    | none =>
      exact ⟨endSequence .channelFailure s, by simp [exec, execGenseq, hb, hpeer], .endSequence hb .channelFailure⟩
    | some dst =>
      obtain ⟨t, -, ht, -⟩ := genLoop_hostView dst 12 0 s s hb rfl
      exact ⟨t, (exec_genseq dst s hb hpeer).trans ht, genLoop_idleAfter dst 12 0 hb ht⟩

theorem idle_of_hostView {s' : State} (hv : hostView s = hostView s') (hb : s.busy = false) : s'.busy = false :=
  (congrArg HostView.busy hv).symm.trans hb

theorem perform_hostView_congr (r : Request) {s' : State} (hb : s.busy = false) (hv : hostView s = hostView s') :
    ∃ t t', perform r s = .next t ∧ perform r s' = .next t' ∧ hostView t = hostView t' := by
  obtain ⟨t, ht, hvt⟩ := perform_hostView r s hb
  obtain ⟨t', ht', hvt'⟩ := perform_hostView r s' (idle_of_hostView hv hb)
  have hd : s.delivered = s'.delivered := congrArg HostView.delivered hv
  exact ⟨t, t', ht, ht', by rw [hvt, hvt', hv, hd]⟩

/-- Two idle states that the host cannot tell apart stay so under every instruction (R19). -/
theorem exec_hostView_congr (i : Instr) {s' : State} (hb : s.busy = false) (hv : hostView s = hostView s') :
    ∃ t t', exec i s = .next t ∧ exec i s' = .next t' ∧ hostView t = hostView t' := by
  have hb' := idle_of_hostView hv hb
  cases i with
  | csum input                     => exact perform_hostView_congr (.csum input) hb hv
  | build f                        => exact perform_hostView_congr (.build f) hb hv
  | buildDef o destination payload => exact perform_hostView_congr (.build (applyDefaults o destination payload)) hb hv
  | verify input                   =>
    obtain ⟨t, ht, hvt, -⟩ := exec_verify input s hb
    obtain ⟨t', ht', hvt', -⟩ := exec_verify input s' hb'
    obtain ⟨u, u', hu, hu', huv⟩ := perform_hostView_congr (.csum input) hb hv
    cases hu.symm.trans ht
    cases hu'.symm.trans ht'
    exact ⟨_, _, hvt, hvt', congrArg (fun v => { v with verdict := some (verdictOf (checksumOf input)) }) huv⟩
  | genseq                         =>
    have hc : s.channel = s'.channel := congrArg HostView.channel hv
    cases hpeer : s.channel.peer with
    | none =>
      refine ⟨endSequence .channelFailure s, endSequence .channelFailure s', by simp [exec, execGenseq, hb, hpeer],
        by simp [exec, execGenseq, hb', ← hc, hpeer], ?_⟩
      exact congrArg (fun v => { v with seqEnd := some .channelFailure }) hv
    | some dst =>
      rw [exec_genseq dst s hb hpeer, exec_genseq dst s' hb' (hc ▸ hpeer)]
      exact genLoop_hostView dst 12 0 s s' hb hv

/-! Any state that meets the invariant. -/

/-- Every instruction completes, and keeps the invariant (R21; 60_exceptions.md R122, R134). -/
theorem exec_completes (i : Instr) (h : MachineInv s) : ∃ t, exec i s = .next t ∧ t.busy = false ∧ MachineInv t := by
  obtain ⟨u, hu, hinv, hidle, -⟩ := finish_completes s h
  obtain ⟨t, ht, hb, hk⟩ := exec_idle i hidle
  exact ⟨t, (exec_eq_of_finish i hu hidle).trans ht, hb, hk hinv⟩

theorem tick_keeps_inv (h : MachineInv s) (ht : tick s = .next t) : MachineInv t := by
  cases hb : s.busy with
  | false =>
    rw [tick_idle hb] at ht
    cases ht
    exact h
  | true =>
    obtain ⟨u, hu, hinv, -⟩ := tick_spec s h hb
    cases hu.symm.trans ht
    exact hinv

/-! One step (R20, 20_memory.md R44). -/

theorem step_of_decode {record : List Byte} {rest : List (List Byte)} {i : Instr} (hp : s.pending = record :: rest)
    (hd : decode record = .ok i) : step s = exec i { s with pending := rest } := by
  simp [step, fetch, hp, hd]

/-- What a step that goes on has done: finished the operation in progress, or run the oldest record's instruction. -/
theorem step_eq_next (h : step s = .next t) :
    (s.pending = [] ∧ finish s = .next t) ∨
    ∃ record rest i, s.pending = record :: rest ∧ decode record = .ok i ∧ exec i { s with pending := rest } = .next t := by
  cases hp : s.pending with
  | nil => exact Or.inl ⟨rfl, by simpa [step, fetch, hp] using h⟩
  | cons record rest =>
    cases hd : decode record with
    | ok i    => exact Or.inr ⟨record, rest, i, rfl, hd, (step_of_decode hp hd).symm.trans h⟩
    | error e => simp [step, fetch, hp, hd] at h

theorem step_keeps_inv (h : MachineInv s) (ht : step s = .next t) : MachineInv t := by
  obtain ⟨-, hf⟩ | ⟨-, rest, i, -, -, hi⟩ := step_eq_next ht
  · exact run_inv (tickBound s) s t h hf
  · obtain ⟨u, hu, -, hinv⟩ := exec_completes i (inv_pending h rest)
    cases hu.symm.trans hi
    exact hinv

end Sys2Proof.Machine

open Sys2Proof Sys2Proof.Machine

/-- Settles O9: a step finishes the operation in progress or runs one instruction, and both keep the invariant, as an
acceptance and a micro-step do. -/
theorem stepKeepsInvariant : Obligations.StepKeepsInvariant :=
  ⟨fun _ _ => step_keeps_inv, accept_inv, fun _ _ => tick_keeps_inv⟩

/-- Settles O42: the response to a request and the loop of GENSEQ depend on the host's view alone. -/
theorem responsesIgnoreWorkingRegisters : Obligations.ResponsesIgnoreWorkingRegisters := by
  intro i s s' hb _ hv
  obtain ⟨t, t', ht, ht', hvt⟩ := exec_hostView_congr i hb hv
  obtain ⟨u, hu, hidle, -⟩ := exec_idle i hb
  cases hu.symm.trans ht
  exact ⟨t, t', ht, ht', hidle, idle_of_hostView hvt hidle, hvt⟩

/-- Settles O38, by the inversion of a micro-step of BUILD. -/
theorem buildStepsAdvanceByOne : Obligations.BuildStepsAdvanceByOne := by
  intro s t hb ho ht
  rw [tick_build hb ho] at ht
  obtain ⟨hstep, hops⟩ := buildTick_staysOrAdvances ht
  obtain ⟨hlo, hhi⟩ := s.hbStep.number_bounds
  refine ⟨?_, hlo, hhi, hops⟩
  obtain h | h := hstep
  · exact Or.inl (by rw [h])
  · rw [h]
    exact s.hbStep.number_next_le

/-- Settles O43: the operation in progress is finished first, and every instruction starts by finishing it. -/
theorem busyRequestIsTakenAfterwards : Obligations.BusyRequestIsTakenAfterwards := by
  intro i s h hb
  obtain ⟨u, hu, -, ⟨-, hpend, -⟩, hidle, hdel, -⟩ := finish_busy s h hb
  exact ⟨u, hu, hidle, hdel, hpend, exec_eq_of_finish i hu hidle⟩

/-- Settles O52: the response is `answerTo`, a function of the request. -/
theorem responseIsFunctionOfOperands : Obligations.ResponseIsFunctionOfOperands := by
  intro r
  refine ⟨answerTo r, fun s hb => ?_⟩
  obtain ⟨t, ht, -, -, hdel, -⟩ := perform_idle r s hb
  exact ⟨t, (exec_instrOf r s).trans ht, hdel⟩

/-- Settles O5: `step_of_decode` is the statement. -/
theorem stepRunsDecodedRequest : Obligations.StepRunsDecodedRequest :=
  fun _ _ _ _ => step_of_decode

/-- Settles O11: each micro-step is opened up to the guarded read that stops it. -/
theorem readBeforeWriteFaults : Obligations.ReadBeforeWriteFaults := by
  intro s
  refine ⟨tick_input_unwritten, fun hc hw => ⟨tick_fold_acc_unwritten hc hw, tick_add_acc_unwritten hc hw,
    tick_tail_acc_unwritten hc hw⟩, fun hb ho hst => ?_, tick_done_result_none, tick_delivery_out_none⟩
  rw [tick_hb hb ho hst]
  exact ⟨hbTick_operands_unwritten, hbTick_totalLength_unwritten,
    fun hw => ⟨hbTick_checksum_hbuf_unwritten hw, hbTick_payload_hbuf_unwritten hw⟩⟩

end

section
/-! PROOFS. Requests and responses (spec/20_memory.md): the step that serves the oldest record, a queue of them, the micro-step
that ends an operation, and the header as a function of the payload's length. -/

namespace Sys2Proof.Machine

variable {s : State}

/-! The record of a request (30_encoding.md R59). -/

theorem head_statement (i : Instr) : Laws.Head.Statement i := by
  cases i with
  | csum input                     => exact Laws.Head.csum input
  | build f                        => exact Laws.Head.build f
  | buildDef o destination payload => exact Laws.Head.buildDef o destination payload
  | verify input                   => exact Laws.Head.verify input
  | genseq                         => exact Laws.Head.genseq

theorem operandBytes_statement (i : Instr) : Laws.OperandBytes.Statement i := by
  cases i with
  | csum input                     => exact Laws.OperandBytes.csum input
  | build f                        => exact Laws.OperandBytes.build f
  | buildDef o destination payload => exact Laws.OperandBytes.buildDef o destination payload
  | verify input                   => exact Laws.OperandBytes.verify input
  | genseq                         => exact Laws.OperandBytes.genseq

/-- Byte 0 gives back operation and form, and the bytes after it the operands. -/
theorem decode_encode {i : Instr} (hw : i.wf = true) : decode (encode i) = .ok i := by
  obtain ⟨hop, hform⟩ := head_statement i
  rw [encode, decode, hop, hform]
  exact operandBytes_statement i hw

/-! A queue of requests (R40, R44). -/

/-- One step of an idle block takes the oldest request and delivers its answer; the host sees nothing else change. -/
theorem step_request {r : Request} {rest : List (List Byte)} (hw : (instrOf r).wf = true) (hb : s.busy = false)
    (hp : s.pending = encode (instrOf r) :: rest) :
    ∃ t, step s = .next t ∧
      hostView t = { hostView s with pending := rest, delivered := answerTo r :: s.delivered } := by
  obtain ⟨t, ht, hv⟩ := perform_hostView r { s with pending := rest } hb
  exact ⟨t, by rw [step_of_decode hp (decode_encode hw), exec_instrOf, ht], hv⟩

theorem run_succ_of_step {M : Host.Core} {a b : M.State} (n : Nat) (h : M.step a = .next b) : M.run (n + 1) a = M.run n b := by
  rw [Host.Core.run, h]

/-- Each step takes one request off the queue and puts its answer before the answers so far. -/
theorem core_run_requests (requests : List Request) (hw : ∀ r ∈ requests, (instrOf r).wf = true) (hb : s.busy = false)
    (hp : s.pending = requests.map (fun r => encode (instrOf r))) :
    ∃ t, core.run requests.length s = .next t ∧
      hostView t = { hostView s with pending := [], delivered := (requests.map answerTo).reverse ++ s.delivered } := by
  induction requests generalizing s with
  | nil => exact ⟨s, rfl, by simp [hostView, hp]⟩
  | cons r requests ih =>
    obtain ⟨hwr, hws⟩ := List.forall_mem_cons.mp hw
    obtain ⟨u, hu, hvu⟩ := step_request hwr hb hp
    obtain ⟨hbu, hpu, hdu, -⟩ := HostView.mk.inj hvu
    obtain ⟨t, ht, hvt⟩ := ih hws (hbu.trans hb) hpu
    exact ⟨t, (run_succ_of_step (M := core) _ hu).trans ht, by simp [hvt, hvu, hdu]⟩

/-! The header and the payload (R32). -/

/-- The payload enters the header by its length alone, in totalLength. -/
theorem headerOf_payload_congr (f : Fields) {p : List Byte} (hl : p.length = f.payload.length) :
    headerOf { f with payload := p } = headerOf f := by
  have hw (c : Word) : headerWith { f with payload := p } c = headerWith f c := by simp only [headerWith, hl]
  rw [headerOf, headerOf, hw, hw]

end Sys2Proof.Machine

open Sys2Proof Sys2Proof.Machine

/-- Settles O7, by induction on the queue: one step serves the oldest request and leaves an idle block with the rest. -/
theorem requestQueueServedInOrder : Obligations.RequestQueueServedInOrder := by
  intro requests s hw hb hp
  obtain ⟨t, ht, hv⟩ := core_run_requests requests hw hb hp
  obtain ⟨hidle, hpend, hdel, -⟩ := HostView.mk.inj hv
  exact ⟨t, ht, hdel, hpend, hidle.trans hb⟩

/-- Settles O37: of the two things a micro-step can do to a busy block, one stays busy and delivers nothing, the other goes
idle with the answer, and both keep the host's side. -/
theorem nothingLeavesBeforeTheResponse : Obligations.NothingLeavesBeforeTheResponse := by
  intro s t hi hb ht
  obtain ⟨u, hu, -, ⟨-, hpend, hverdict, hseq, hchan, -⟩, hend⟩ := tick_spec s hi hb
  cases hu.symm.trans ht
  obtain ⟨hbt, hdel, -⟩ | ⟨hbt, hdel, -⟩ := hend
  · exact ⟨fun _ => hdel, fun hf => by simp [hbt] at hf, hpend, hchan, hverdict, hseq⟩
  · exact ⟨fun hf => by simp [hbt] at hf, fun _ => hdel, hpend, hchan, hverdict, hseq⟩

/-- Settles O39: both answers are header and payload, and the headers are equal because the payloads' lengths are. -/
theorem payloadNeverEntersHeader : Obligations.PayloadNeverEntersHeader := by
  intro f p s out out' hb hl ha ha'
  obtain ⟨-, rfl⟩ := answers_build_ok hb ha
  obtain ⟨-, rfl⟩ := answers_build_ok hb ha'
  exact ⟨by rw [take_packet, take_packet, headerOf_payload_congr f hl], drop_packet _ p⟩

end

section
/-! PROOFS. Records and packets (spec/30_encoding.md): a record is the record of what it decodes to, and the accessors over the
header of a packet. -/

namespace Sys2Proof

/-! What a decoder has read is what the encoder writes (R59). -/

theorem bind_eq_ok {ε α β : Type} {x : Except ε α} {k : α → Except ε β} {b : β} (h : (x >>= k) = .ok b) :
    ∃ a, x = .ok a ∧ k a = .ok b := by
  cases x with
  | error e => contradiction
  | ok a    => exact ⟨a, rfl, h⟩

/-- A decoder that starts with a reader and succeeds: the reader has taken off the front what its encoder writes. -/
theorem read_bind_ok {α β : Type} {rd : Reader α} {enc : α → List Byte}
    (hrd : ∀ {l r v}, rd l = .ok (v, r) → l = enc v ++ r) {l : List Byte} {k : α × List Byte → Except DecodeError β} {b : β}
    (h : (rd l >>= k) = .ok b) : ∃ v r, l = enc v ++ r ∧ k (v, r) = .ok b := by
  obtain ⟨⟨v, r⟩, hl, hk⟩ := bind_eq_ok h
  exact ⟨v, r, hrd hl, hk⟩

theorem readByte_bind_ok {β : Type} {l : List Byte} {k : Byte × List Byte → Except DecodeError β} {b : β}
    (h : (readByte l >>= k) = .ok b) : ∃ v r, l = v :: r ∧ k (v, r) = .ok b :=
  read_bind_ok (enc := fun v => [v]) readByte_ok h

theorem readOption_bind_ok {α β : Type} {rd : Reader α} {enc : α → List Byte}
    (hrd : ∀ {l r v}, rd l = .ok (v, r) → l = enc v ++ r) {l : List Byte}
    {k : Option α × List Byte → Except DecodeError β} {b : β} (h : (readOption rd l >>= k) = .ok b) :
    ∃ v r, l = encodeOption enc v ++ r ∧ k (v, r) = .ok b :=
  read_bind_ok (readOption_ok rd enc hrd) h

theorem readPayload_bind_ok {β : Type} {l : List Byte} {k : List Byte → Except DecodeError β} {b : β}
    (h : (readPayload l >>= k) = .ok b) : ∃ p, l = encodePayload p ∧ payloadFits p = true ∧ k p = .ok b := by
  obtain ⟨p, hl, hk⟩ := bind_eq_ok h
  obtain ⟨hp, hfits⟩ := readPayload_ok hl
  exact ⟨p, hp, hfits, hk⟩

theorem decodeBuild_ok {r : List Byte} {i : Instr} (h : decodeBuild r = .ok i) :
    ∃ f, i = .build f ∧ encodeFields f = r ∧ payloadFits f.payload = true := by
  obtain ⟨version, r1, e1, h⟩ := readByte_bind_ok h
  obtain ⟨ihl, r2, e2, h⟩ := readByte_bind_ok h
  obtain ⟨tos, r3, e3, h⟩ := readByte_bind_ok h
  obtain ⟨ident, r4, e4, h⟩ := read_bind_ok readWord_ok h
  obtain ⟨ff, r5, e5, h⟩ := read_bind_ok readWord_ok h
  obtain ⟨ttl, r6, e6, h⟩ := readByte_bind_ok h
  obtain ⟨proto, r7, e7, h⟩ := readByte_bind_ok h
  obtain ⟨src, r8, e8, h⟩ := read_bind_ok readAddr_ok h
  obtain ⟨dst, r9, e9, h⟩ := read_bind_ok readAddr_ok h
  obtain ⟨payload, e10, hp, h⟩ := readPayload_bind_ok h
  cases h
  exact ⟨_, rfl, by simp [encodeFields, e1, e2, e3, e4, e5, e6, e7, e8, e9, e10], hp⟩

theorem decodeBuildDef_ok {r : List Byte} {i : Instr} (h : decodeBuildDef r = .ok i) :
    ∃ o dst payload, i = .buildDef o dst payload ∧
      encodeOverrides o ++ dst.octets ++ encodePayload payload = r ∧ payloadFits payload = true := by
  obtain ⟨version, r1, e1, h⟩ := readOption_bind_ok (enc := fun v => [v]) readByte_ok h
  obtain ⟨ihl, r2, e2, h⟩ := readOption_bind_ok (enc := fun v => [v]) readByte_ok h
  obtain ⟨tos, r3, e3, h⟩ := readOption_bind_ok (enc := fun v => [v]) readByte_ok h
  obtain ⟨ident, r4, e4, h⟩ := readOption_bind_ok readWord_ok h
  obtain ⟨flags, r5, e5, h⟩ := readOption_bind_ok (enc := fun v => [BitVec.setWidth 8 v]) readFlags_ok h
  obtain ⟨frag, r6, e6, h⟩ := readOption_bind_ok readFragment_ok h
  obtain ⟨ttl, r7, e7, h⟩ := readOption_bind_ok (enc := fun v => [v]) readByte_ok h
  obtain ⟨proto, r8, e8, h⟩ := readOption_bind_ok (enc := fun v => [v]) readByte_ok h
  obtain ⟨src, r9, e9, h⟩ := readOption_bind_ok readAddr_ok h
  obtain ⟨dst, r10, e10, h⟩ := read_bind_ok readAddr_ok h
  obtain ⟨payload, e11, hp, h⟩ := readPayload_bind_ok h
  cases h
  exact ⟨_, _, _, rfl, by simp [encodeOverrides, e1, e2, e3, e4, e5, e6, e7, e8, e9, e10, e11], hp⟩

theorem decodeGenseq_ok {r : List Byte} {i : Instr} (h : decodeGenseq r = .ok i) : i = .genseq ∧ r = [] := by
  cases r with
  | nil      => exact ⟨(Except.ok.inj h).symm, rfl⟩
  | cons b r => contradiction

/-- Operation, form and operand bytes that decode are those of the instruction they decode to. -/
theorem decodeOperands_ok {op : Op} {form : Nat} {r : List Byte} {i : Instr} (h : decodeOperands op form r = .ok i) :
    i.op = op ∧ i.form.toNat = form ∧ encodeOperands i = r ∧ i.wf = true := by
  unfold decodeOperands at h
  split at h
  · cases h
    exact ⟨rfl, rfl, rfl, rfl⟩
  · cases h
    exact ⟨rfl, rfl, rfl, rfl⟩
  · obtain ⟨f, rfl, hr, hp⟩ := decodeBuild_ok h
    exact ⟨rfl, rfl, hr, hp⟩
  · obtain ⟨o, dst, payload, rfl, hr, hp⟩ := decodeBuildDef_ok h
    exact ⟨rfl, rfl, hr, hp⟩
  · obtain ⟨rfl, rfl⟩ := decodeGenseq_ok h
    exact ⟨rfl, rfl, rfl, rfl⟩
  · contradiction

/-! Byte 0 (R60; logs 1, 2). -/

theorem opOfBit_injective : Function.Injective opOfBit := by decide

theorem opOfBit_eq_iff (b : Bool) (op : Op) : opOfBit b = op ↔ b = decide (op = .build) := by
  cases b <;> cases op <;> decide

theorem headByte_build (f : Fields) : headByte (.build f) = 1 := by
  simp [headByte, Instr.form, Instr.op, Op.code]

/-- The operation select and the form are all that byte 0 holds. -/
theorem byte_eq_of_op_form {a b : Byte} (hop : opOfBit (a.getLsbD 0) = opOfBit (b.getLsbD 0)) (hform : formOf a = formOf b) :
    a = b := by
  have hbit : a.toNat % 2 = 1 ↔ b.toNat % 2 = 1 := by
    simpa [BitVec.getLsbD, Nat.testBit_zero] using opOfBit_injective hop
  have hrest : a.toNat / 2 = b.toNat / 2 := hform
  exact BitVec.eq_of_toNat_eq (by omega)

theorem encode_of_decode_ok {record : List Byte} {i : Instr} (h : decode record = .ok i) : encode i = record ∧ i.wf = true := by
  cases record with
  | nil      => contradiction
  | cons b r =>
    obtain ⟨hop, hform, hr, hw⟩ := decodeOperands_ok h
    obtain ⟨hop', hform'⟩ := Machine.head_statement i
    exact ⟨by rw [encode, hr, byte_eq_of_op_form (hop'.trans hop) (hform'.trans hform)], hw⟩

end Sys2Proof

namespace Sys2Proof.Machine

/-! The accessors (R56). -/

/-- Bits 15:13 of the word at offset 6 (R53). -/
theorem getFlags_eq (h : List Byte) : getFlags h = flagsOf (headerWord h 6) := by
  have hlo := (headerByte h 7).isLt
  apply BitVec.eq_of_toNat_eq
  simp [getFlags, flagsOf, headerWord, word_toNat, Nat.shiftRight_eq_div_pow]
  omega

/-- Bits 12:0 of the word at offset 6 (R53). -/
theorem getFragmentOffset_eq (h : List Byte) : getFragmentOffset h = fragmentOf (headerWord h 6) := by
  have hmask : (headerByte h 6).toNat &&& 31 = (headerByte h 6).toNat % 32 := Nat.and_two_pow_sub_one_eq_mod _ 5
  have hlo := (headerByte h 7).isLt
  apply BitVec.eq_of_toNat_eq
  simp [getFragmentOffset, fragmentOf, headerWord, word_toNat, hmask]
  omega

/-! The accessors over the header with any checksum (R57, R58). -/

theorem headerByte_version_ihl (f : Fields) (c : Word) : headerByte (headerWith f c) 0 = 0x40 ||| f.headerLengthWords := rfl

theorem getVersion_headerWith {f : Fields} (hf : Accepts f) (c : Word) : getVersion (headerWith f c) = f.version := by
  obtain ⟨hv, -, hl, -⟩ := hf
  apply BitVec.eq_of_toNat_eq
  rw [hv, getVersion, headerByte_version_ihl, BitVec.toNat_ushiftRight, byte0_toNat hl, Nat.shiftRight_eq_div_pow]
  show _ = 4
  omega

theorem getIhl_headerWith {f : Fields} (hf : Accepts f) (c : Word) : getIhl (headerWith f c) = f.headerLengthWords := by
  obtain ⟨-, -, hl, -⟩ := hf
  apply BitVec.eq_of_toNat_eq
  rw [getIhl, headerByte_version_ihl, BitVec.toNat_and, byte0_toNat hl]
  exact (Nat.and_two_pow_sub_one_eq_mod _ 4).trans (by omega)

/-- Its own length field, whatever follows the header. -/
theorem getTotalLength_headerWith {f : Fields} (hf : fieldsValid f = true) (c : Word) (p : List Byte) :
    (getTotalLength (headerWith f c ++ p)).toNat = 20 + f.payloadLength :=
  (congrArg BitVec.toNat (word_hiByte_loByte _)).trans (totalLength_toNat hf)

theorem headerWord_flagsFragment (f : Fields) (c : Word) :
    headerWord (headerWith f c) 6 = flagsFragment f.flags f.fragmentOffset := word_hiByte_loByte _

theorem getFlags_headerWith (f : Fields) (c : Word) : getFlags (headerWith f c) = f.flags := by
  rw [getFlags_eq, headerWord_flagsFragment, flagsOf_flagsFragment]

theorem getFragmentOffset_headerWith (f : Fields) (c : Word) : getFragmentOffset (headerWith f c) = f.fragmentOffset := by
  rw [getFragmentOffset_eq, headerWord_flagsFragment, fragmentOf_flagsFragment]

/-- Bytes 10 and 11 are the checksum's and nothing else's (40_header_builder.md R84). -/
theorem headerWith_clear_checksum (f : Fields) (c : Word) : ((headerWith f c).set 10 0).set 11 0 = headerWith f 0 := rfl

theorem packet_length (f : Fields) : (headerOf f ++ f.payload).length = 20 + f.payloadLength := by
  rw [List.length_append, headerOf_length, Fields.payloadLength]

/-- BUILD answers InvalidField exactly when step 1 rejects the operands (R62; 40_header_builder.md R71). -/
theorem answerTo_build_eq_invalidField_iff (f : Fields) : answerTo (.build f) = .invalidField ↔ fieldsValid f = false := by
  cases hv : fieldsValid f <;> simp [answerTo, hv]

end Sys2Proof.Machine

open Sys2Proof Sys2Proof.Machine

/-- Settles O1: byte 0 gives back operation and form, the bytes after it the operands. -/
theorem decodeOfEncodeGivesInstruction : Obligations.DecodeOfEncodeGivesInstruction :=
  fun _ => decode_encode

/-- Settles O2: every reader took off the front what its encoder writes. -/
theorem encodeOfDecodeGivesRecord : Obligations.EncodeOfDecodeGivesRecord :=
  fun _ _ => encode_of_decode_ok

/-- Settles O25: the values that step 1 rejects are the illegal ones, and the answer to a CSUM is always a result. -/
theorem illegalValuesRaiseInvalidField : Obligations.IllegalValuesRaiseInvalidField := by
  refine fun s hb => ⟨fun f => ?_, fun input => ⟨checksumOf input, (answers_csum input s hb _).mpr rfl⟩⟩
  rw [answers_build f s hb, eq_comm, answerTo_build_eq_invalidField_iff]
  exact (illegal_iff f).symm

/-- Settles O28: the answer is header and payload, and each accessor gives its field of the header back. -/
theorem accessorsGiveOperandsBack : Obligations.AccessorsGiveOperandsBack := by
  intro f s out hb ha
  obtain ⟨hv, rfl⟩ := answers_build_ok hb ha
  have hf := (fieldsValid_iff f).mp hv
  rw [take_packet, drop_packet, headerOf]
  refine ⟨getVersion_headerWith hf _, hf.1, getIhl_headerWith hf _, rfl, getTotalLength_headerWith hv _ [],
    word_hiByte_loByte _, getFlags_headerWith f _, getFragmentOffset_headerWith f _, rfl, rfl, rfl, rfl, ?_, List.take_length⟩
  rw [headerWith_clear_checksum, answers_csum _ s hb]
  exact congrArg Response.result (getChecksum_headerWith f _ [])

/-- Settles O29: 20 header bytes and the payload, at most 65535 by the check of step 1, and as many for every header length. -/
theorem packetLength : Obligations.PacketLength := by
  intro f s out hb ha
  obtain ⟨hv, rfl⟩ := answers_build_ok hb ha
  have hl := packet_length f
  obtain ⟨-, -, -, hmax⟩ := (fieldsValid_iff f).mp hv
  refine ⟨⟨headerOf f, headerOf_length f, rfl⟩, hl, by omega, ?_, hl.trans (getTotalLength_headerWith hv _ _).symm, ?_⟩
  · rw [hl, Fields.payloadLength]
    omega
  · intro l out' ha'
    obtain ⟨-, rfl⟩ := answers_build_ok hb ha'
    exact (packet_length { f with headerLengthWords := l }).trans hl.symm

/-- Settles O3: the operation select comes back from byte 0, which is 1 in the record of every BUILD. -/
theorem firstBitSelectsOperation : Obligations.FirstBitSelectsOperation := by
  refine ⟨fun i => ⟨headByte i, encodeOperands i, rfl, ?_⟩, fun r => rfl, fun f hf => ?_⟩
  · obtain ⟨hop, -⟩ := head_statement i
    exact (opOfBit_eq_iff _ _).mp hop
  · have henc : encode (.build f) = 1 :: encodeFields f := congrArg (· :: encodeFields f) (headByte_build f)
    exact ⟨encodeFields f, henc, henc ▸ decode_encode (i := .build f) hf⟩

/-- Settles O4, by running the decoder on the five records. -/
theorem writtenRecordsDecode : Obligations.WrittenRecordsDecode :=
  ⟨rfl, rfl, rfl, by decide, by decide⟩

end

section
/-! PROOFS. BUILD and BUILD.DEF (spec/40_header_builder.md): the steps of HB one by one, from validation to the response, and the
packet an accepted request is answered with. -/

namespace Sys2Proof.Machine

variable {s : State}

/-! Steps 1 to 11 (R71 to R81). -/

/-- A BUILD that has no status pending meets HB's invariant. -/
theorem hbInv_of_machineInv (h : MachineInv s) (hb : s.busy = true) (ho : s.op = .build) (hst : s.status = none) :
    HbInv s := by
  simpa only [MachineInv, hb, if_true, ho, BuildInv, hst] using h

/-- A step of HB that reads the operand latches and goes on is a micro-step of the block. -/
theorem tick_hb_operands {g : Fields → State → State} (hb : s.busy = true) (ho : s.op = .build) (hst : s.status = none)
    (hw : s.written.operands = true) (h : hbTick s = withOperands s fun f => .next (g f s)) :
    tick s = .next (g s.operands s) := by
  rw [tick_hb hb ho hst, h, withOperands_written hw]

theorem withTotalLength_written {k : Word → Out} (h : s.written.totalLength = true) :
    withTotalLength s k = k s.totalLength := by simp [withTotalLength, h]

/-- Step 4 reads totalLength and no operand latch (R74). -/
theorem tick_hb_totalLength (hb : s.busy = true) (ho : s.op = .build) (hst : s.status = none)
    (hw : s.written.totalLength = true) (hp : s.hbStep = .totalLength) :
    tick s = .next (hbTotalLength s.totalLength s) := by
  simp only [tick_hb hb ho hst, hbTick, hp, withTotalLength_written hw]

/-- Step 9 reads nothing (R79). -/
theorem tick_hb_placeholder (hb : s.busy = true) (ho : s.op = .build) (hst : s.status = none) (hp : s.hbStep = .placeholder) :
    tick s = .next (hbPlaceholder s) := by
  simp only [tick_hb hb ho hst, hbTick, hp]

/-- The three checks of step 1 as R71 writes them, of natural numbers. -/
theorem fieldsValid_iff_checks (f : Fields) :
    fieldsValid f = true ↔ f.version.toNat = 4 ∧ 5 ≤ f.headerLengthWords.toNat ∧ f.headerLengthWords.toNat ≤ 15 ∧
      20 + f.payloadLength ≤ 65535 := by
  rw [fieldsValid_iff, Accepts, ← BitVec.toNat_inj, Fields.payloadLength]
  show f.version.toNat = 4 ∧ _ ↔ _
  omega

/-- The flags fill the top three bits of byte 6, the high part of fragmentOffset the other five (R76). -/
theorem hiByte_flagsFragment (flags : BitVec 3) (frag : BitVec 13) :
    hiByte (flagsFragment flags frag) = (flags.setWidth 8 <<< 5) ||| (frag >>> 8).setWidth 8 := by
  apply BitVec.eq_of_getLsbD_eq
  intro i hi
  interval_cases i <;> simp [hiByte, flagsFragment]

/-- Byte 7 is the low byte of fragmentOffset (R76). -/
theorem loByte_flagsFragment (flags : BitVec 3) (frag : BitVec 13) :
    loByte (flagsFragment flags frag) = frag.setWidth 8 := by
  apply BitVec.eq_of_toNat_eq
  rw [loByte_toNat, flagsFragment_toNat, BitVec.toNat_setWidth]
  omega

/-! Step 12 (R82). -/

/-- All of HBUF is written once steps 2 to 11 are done. -/
theorem hbuf_written (h : HbInv s) (hn : 11 < s.hbStep.number) : s.written.hbuf.toList.all id = true := by
  obtain ⟨-, -, hbytes, -⟩ := h
  refine all_marks _ fun k hk => (hbytes k hk ?_).1
  have := (stepOfByte_lt hk).2
  omega

theorem withHbuf_written {k : List Byte → Out} (h : s.written.hbuf.toList.all id = true) : withHbuf s k = k s.hbuf.toList := by
  rw [withHbuf, if_pos h]

/-- CK starts over the 20 bytes of HBUF. -/
theorem tick_checksum_init (hi : HbInv s) (hb : s.busy = true) (ho : s.op = .build) (hst : s.status = none)
    (hp : s.hbStep = .checksum) (hc : s.ckPhase = .init) : tick s = .next (ckInit (writeInput s.hbuf.toList s)) := by
  have hw := hbuf_written hi (by simp [hp, HbStep.number])
  simp only [tick_hb hb ho hst, hbTick, hp, hbChecksum, hc, withHbuf_written hw, ckTick, writeInput_ckPhase]

/-- CK's result goes to headerChecksum and to bytes 10 and 11. -/
theorem tick_checksum_done {c : Word} (hb : s.busy = true) (ho : s.op = .build) (hst : s.status = none)
    (hp : s.hbStep = .checksum) (hc : s.ckPhase = .done) (hr : s.result = some c) :
    tick s = .next (advance (writeWord 10 c { s with headerChecksum := c })) := by
  simp only [tick_hb hb ho hst, hbTick, hp, hbChecksum, hc, withResult, hr]

theorem CkFrame.trans {s t u : State} (h : CkFrame s t) (g : CkFrame t u) : CkFrame s u := by
  unfold CkFrame at *
  rw [g, h]

theorem run_succ_of_tick {t : State} (n : Nat) (hb : s.busy = true) (h : tick s = .next t) : run (n + 1) s = run n t := by
  rw [run, if_pos hb, h, andThen_next]

/-- In DONE the result is the checksum of what CK was handed. -/
theorem CkInv.result_of_done (h : CkInv s) (hc : s.ckPhase = .done) : s.result = some (checksumOf s.input) := by
  obtain ⟨-, h⟩ := h
  rw [hc] at h
  exact h.2.2

/-- Step 12 from its start to its end: CK's run changes CK's registers alone, and its result is then taken. -/
theorem run_checksum_step (hi : HbInv s) (hb : s.busy = true) (ho : s.op = .build) (hst : s.status = none)
    (hp : s.hbStep = .checksum) (hc : s.ckPhase = .init) :
    ∃ n u, CkFrame (writeInput s.hbuf.toList s) u ∧
      run n s = .next (advance (writeWord 10 (checksumOf s.hbuf.toList)
        { u with headerChecksum := checksumOf s.hbuf.toList })) := by
  have hstart := tick_checksum_init hi hb ho hst hp hc
  obtain ⟨-, -, -, -, hres, -⟩ := hi
  obtain ⟨hinv, hframe, -, hadd⟩ := ckInit_spec (writeInput s.hbuf.toList s) rfl (hres hc) hc
  obtain ⟨n, u, hrun, hu, hdone, hinv'⟩ :=
    checksum_step_reaches_done _ (ckInit (writeInput s.hbuf.toList s)) hb ho hst hp hinv (by simp [hadd]) le_rfl
  replace hu := hframe.trans hu
  have hin : u.input = s.hbuf.toList := by rw [hu]; rfl
  have hbu : u.busy = true := by rw [hu]; exact hb
  refine ⟨n + 2, u, hu, ?_⟩
  rw [run_succ_of_tick _ hb hstart, run_succ_last n _ u hrun hbu, ← hin]
  exact tick_checksum_done hbu (by rw [hu]; exact ho) (by rw [hu]; exact hst) (by rw [hu]; exact hp) hdone
    (hinv'.result_of_done hdone)

/-! Step 13 (R83). -/

/-- Step 13 leaves OUT and the status OK pending, and touches nothing else. -/
theorem tick_payload (hi : HbInv s) (hb : s.busy = true) (ho : s.op = .build) (hst : s.status = none) (hp : s.hbStep = .payload) :
    tick s = .next { s with out := some (s.hbuf.toList ++ s.operands.payload), status := some .ok } := by
  have hw := hbuf_written hi (by simp [hp, HbStep.number])
  obtain ⟨-, hops, -⟩ := hi
  simp only [tick_hb hb ho hst, hbTick, hp, withOperands_written hops, hbPayload, withHbuf_written hw]

/-- totalLength holds the length of the packet, which the check of step 1 keeps from wrapping. -/
theorem totalLength_at_payload (hi : HbInv s) (hp : s.hbStep = .payload) :
    s.totalLength.toNat = 20 + s.operands.payload.length := by
  obtain ⟨-, -, -, hval, -⟩ := hi
  obtain ⟨hv, -, ht⟩ := hval (by simp [hp])
  rw [ht]
  exact totalLength_toNat hv

/-! The answer (R84). -/

theorem answerTo_build_of_valid {f : Fields} (hv : fieldsValid f = true) :
    answerTo (.build f) = .ok (headerOf f ++ f.payload) := by
  rw [answerTo, if_pos hv]

/-! Another header length (R87). -/

/-- The header length stands in byte 0 alone: another one, with its own checksum, changes three bytes of the packet. -/
theorem headerWith_headerLengthWords (f : Fields) (l : BitVec 8) (c c' : Word) (p : List Byte) :
    headerWith { f with headerLengthWords := l } c' ++ p =
      (((headerWith f c ++ p).set 0 (0x40 ||| l)).set 10 (hiByte c')).set 11 (loByte c') := rfl

/-! BUILD.DEF (R86). -/

/-- BUILD.DEF is the BUILD it expands to, in every state. -/
theorem exec_buildDef (o : Overrides) (dst : Ipv4Addr) (payload : List Byte) (s : State) :
    exec (.buildDef o dst payload) s = exec (.build (applyDefaults o dst payload)) s := rfl

theorem answers_buildDef (o : Overrides) (dst : Ipv4Addr) (payload : List Byte) (hb : s.busy = false) (r : Response) :
    Answers (.buildDef o dst payload) s r ↔ r = answerTo (.build (applyDefaults o dst payload)) :=
  answers_build (applyDefaults o dst payload) s hb r

/-- With the defaults the payload is all that step 1 can reject. -/
theorem fieldsValid_defaults_iff (dst : Ipv4Addr) (payload : List Byte) :
    fieldsValid (applyDefaults {} dst payload) = true ↔ payload.length ≤ 65515 := by
  rw [fieldsValid_iff]
  have hihl : 5 ≤ Config.defIhl.toNat ∧ Config.defIhl.toNat ≤ 15 := by decide
  exact ⟨fun ⟨_, _, _, h⟩ => h, fun h => ⟨rfl, hihl.1, hihl.2, h⟩⟩

/-- The header that R86 writes out, with any checksum. -/
theorem headerWith_defaults (dst : Ipv4Addr) (payload : List Byte) (c : Word) :
    headerWith (applyDefaults {} dst payload) c =
      [0x45, 0x00, hiByte (BitVec.ofNat 16 (20 + payload.length)), loByte (BitVec.ofNat 16 (20 + payload.length)), 0x00, 0x00,
        0x00, 0x00, 0x32, 0x06, hiByte c, loByte c, 0x7F, 0x00, 0x00, 0x01, dst.o0, dst.o1, dst.o2, dst.o3] := by
  have hihl : (0x40 ||| Config.defIhl : Byte) = 0x45 := by decide
  have hflags : flagsFragment Config.defFlags Config.defFrag = 0 := by decide
  simp only [headerWith, applyDefaults, Option.getD_none, hihl, hflags]
  rfl

end Sys2Proof.Machine

open Sys2Proof Sys2Proof.Machine

/-- Settles O24: the answer is `answerTo`, which step 1 decides, and its checksum is the answer to the CSUM of the header with
the placeholder. -/
theorem buildAnswersClosedForm : Obligations.BuildAnswersClosedForm := by
  refine fun f s hb => ⟨fun hbad => ?_, fun hgood => ?_⟩
  · have hv := (illegal_iff f).mp hbad
    exact (answers_build f s hb _).mpr ((answerTo_build_eq_invalidField_iff f).mpr hv).symm
  · have hv : fieldsValid f = true := by simpa using mt (illegal_iff f).mpr hgood
    obtain ⟨t, ht, hdel⟩ := (answers_build f s hb _).mpr (answerTo_build_of_valid hv).symm
    exact ⟨t, checksumOf (headerWith f 0), ht, (answers_csum _ s hb _).mpr rfl, hdel⟩

/-- Settles O27: at the end HB and CK stand where step 13 found them, the block is idle with no response pending, and no
micro-step has touched the host's side. -/
theorem buildFrame : Obligations.BuildFrame := by
  intro f s t hb hf ht
  obtain ⟨u, hu, hinv, hidle, -, ⟨hop, hpend, hverdict, hseq, hchan, hops, -⟩, -, hfin⟩ := perform_idle (.build f) s hb
  cases hu.symm.trans ht
  simp only [accept_build_op, accept_build_pending, accept_build_verdict, accept_build_seqEnd, accept_build_channel,
    accept_build_operands] at hop hpend hverdict hseq hchan hops
  have hv := (fieldsValid_iff f).mpr hf
  have hdone := hfin hop (hops ▸ hv)
  rw [HeaderDone, hops] at hdone
  obtain ⟨hbuf, hck, htl, hstep, hphase, hin, hi, hacc⟩ := hdone
  have hnone : NothingPending t := by simpa [MachineInv, hidle] using hinv
  obtain ⟨hst, hout, hres⟩ := hnone
  exact ⟨hidle, hop, hops, hbuf, htl ▸ totalLength_toNat hv, hck, hstep, hin, hphase, hi, by rw [hacc, exactWordSum_eq],
    hst, hout, hres, hpend, hverdict, hseq, hchan⟩

/-- Settles O34: CK is started over HBUF, runs to DONE, and its result is taken by the micro-step that ends step 12. -/
theorem buildStepTwelveFillsChecksum : Obligations.BuildStepTwelveFillsChecksum := by
  refine ⟨fun s hinv hb ho hst hp hc => ?_, fun s c => tick_checksum_done⟩
  have hi := hbInv_of_machineInv hinv hb ho hst
  obtain ⟨n, u, hu, hrun⟩ := run_checksum_step hi hb ho hst hp hc
  refine ⟨n, _, checksumOf s.hbuf.toList, hrun, (answers_csum _ _ rfl _).mpr rfl, ?_, ?_⟩
  · rw [(hbuf_at_checksum hi hp).2]
    exact checksumOf_headerWith_ne_ones s.operands 0
  · rw [hu]
    exact ⟨rfl, rfl, congrArg HbStep.next hp, hb, rfl, rfl, rfl⟩

/-- Settles O35: step 13 reads the finished HBUF, and a BUILD with the status OK delivers OUT. -/
theorem buildStepThirteenResponds : Obligations.BuildStepThirteenResponds := by
  intro s hinv hb ho hst hp
  have hi := hbInv_of_machineInv hinv hb ho hst
  have hlen : (s.hbuf.toList ++ s.operands.payload).length = s.totalLength.toNat := by
    simp [totalLength_at_payload hi hp]
  exact ⟨_, deliver (.ok (s.hbuf.toList ++ s.operands.payload)) _, _, tick_payload hi hb ho hst hp, rfl, rfl, hlen, rfl,
    tick_build hb ho, rfl, rfl⟩

/-- Settles O40: step 1 accepts 6 to 15 as it does 5, and the two packets differ in byte 0 and the checksum. -/
theorem headerLengthChangesOnlyByteZeroAndChecksum : Obligations.HeaderLengthChangesOnlyByteZeroAndChecksum := by
  intro f l s out hb hlo hhi ha
  obtain ⟨hv, rfl⟩ := answers_build_ok hb ha
  obtain ⟨hver, -, -, hlen⟩ := (fieldsValid_iff _).mp hv
  have hf : Accepts { f with headerLengthWords := l } := ⟨hver, Nat.le_of_succ_le hlo, hhi, hlen⟩
  have hbyte : (0x40 ||| l).toNat = 0x40 + l.toNat := byte0_toNat hhi
  refine ⟨headerOf { f with headerLengthWords := l } ++ f.payload,
    (answers_build _ s hb _).mpr (answerTo_build_of_valid ((fieldsValid_iff _).mpr hf)).symm, ?_, rfl, by omega, by omega, ?_,
    drop_packet _ _, fun k h0 h10 h11 => ?_⟩
  · simp only [List.length_append, headerOf_length]
  · rw [take_packet, headerOf, headerWith_clear_checksum, getChecksum_headerWith]
    exact (answers_csum _ s hb _).mpr rfl
  · rw [headerOf, headerOf, headerWith_headerLengthWords { f with headerLengthWords := 5 } l,
      List.getElem?_set_ne h11.symm, List.getElem?_set_ne h10.symm, List.getElem?_set_ne h0.symm]

/-- Settles O41: BUILD.DEF is a BUILD by definition; with the defaults step 1 can reject the payload's length alone. -/
theorem buildDefFillsDefaults : Obligations.BuildDefFillsDefaults := by
  refine fun o dst payload s hb => ⟨?_, fun hlong => ?_, fun hshort => ?_⟩
  · obtain ⟨t, ht, -⟩ := exec_idle (.buildDef o dst payload) hb
    exact ⟨t, t, ht, (exec_buildDef o dst payload s).symm.trans ht, rfl⟩
  · have hv : fieldsValid (applyDefaults {} dst payload) = false := by
      rw [← Bool.not_eq_true, fieldsValid_defaults_iff]
      omega
    exact (answers_buildDef {} dst payload hb _).mpr ((answerTo_build_eq_invalidField_iff _).mpr hv).symm
  · have hv := (fieldsValid_defaults_iff dst payload).mpr hshort
    refine ⟨BitVec.ofNat 16 (20 + payload.length), checksumOf (headerWith (applyDefaults {} dst payload) 0),
      totalLength_toNat hv, (answers_buildDef {} dst payload hb _).mpr ?_, (answers_csum _ s hb _).mpr ?_⟩
    · rw [answerTo_build_of_valid hv, headerOf, headerWith_defaults _ _ (checksumOf _)]
      rfl
    · rw [headerWith_defaults]
      rfl

/-- Settles O31: step 1 writes totalLength or raises InvalidField, which the next micro-step delivers. -/
theorem buildStepOneValidates : Obligations.BuildStepOneValidates := by
  refine ⟨rfl, rfl, fun s hb ho hst hp hw => ?_⟩
  have htick : tick s = .next (hbValidate s.operands s) := tick_hb_operands hb ho hst hw (by rw [hbTick, hp])
  rw [htick, ← fieldsValid_iff_checks, hbValidate]
  refine ⟨fun hv => ?_, fun hv => ?_⟩
  · rw [if_pos hv, advance, writeTotalLength_hbStep, hp]
    rfl
  · rw [if_neg hv]
    exact ⟨rfl, deliver .invalidField _, tick_build hb ho, rfl, hp, rfl, rfl, rfl, rfl⟩

/-- Settles O32: each step is its definition on the operands the latches hold. -/
theorem buildStepsTwoToElevenPack : Obligations.BuildStepsTwoToElevenPack := by
  rintro s f hb ho hst hw ht rfl
  have hstep {g : Fields → State → State} (h : hbTick s = withOperands s fun f => .next (g f s)) :
      tick s = .next (g s.operands s) := tick_hb_operands hb ho hst hw h
  refine ⟨fun hp => hstep (g := hbByte0) (by rw [hbTick, hp]), fun hf => ?_,
    fun hp => hstep (g := hbTypeOfService) (by rw [hbTick, hp]), tick_hb_totalLength hb ho hst ht,
    fun hp => hstep (g := hbIdentification) (by rw [hbTick, hp]), fun hp => ?_,
    fun hp => hstep (g := hbTimeToLive) (by rw [hbTick, hp]), fun hp => hstep (g := hbProtocol) (by rw [hbTick, hp]),
    tick_hb_placeholder hb ho hst, fun hp => hstep (g := hbSource) (by rw [hbTick, hp]),
    fun hp => hstep (g := hbDestination) (by rw [hbTick, hp])⟩
  · have ⟨_, hlo, hhi, _⟩ := hf
    have hbyte := byte0_toNat hhi
    exact ⟨versionIhlByte_eq ((fieldsValid_iff _).mpr hf), by omega, by omega⟩
  · rw [hstep (g := hbFlagsFragment) (by rw [hbTick, hp]), hbFlagsFragment, writeWord, hiByte_flagsFragment,
      loByte_flagsFragment]

end

section
/-! PROOFS. CSUM and VERIFY (spec/41_checksum.md): the fold, the laws of the word sum, the rows of CK, and what the two
operations leave behind. -/

namespace Sys2Proof.Machine

/-! The fold (R94, R96, R99). -/

theorem foldPass_lt {acc : Nat} (h : acc > 0xFFFF) : foldPass acc < acc := by
  rw [foldPass_eq]
  omega

/-- The loop of R94 started at `S` ends, at fold*(S), and makes a pass only over a value above 0xFFFF. -/
theorem foldPass_iterate_reaches_foldStar (S : Nat) :
    ∃ passes : Nat, foldPass^[passes] S = foldStar S ∧ foldStar S ≤ 0xFFFF ∧ ∀ m, m < passes → foldPass^[m] S > 0xFFFF := by
  induction S using Nat.strong_induction_on with
  | h S ih =>
    by_cases hS : S > 0xFFFF
    · obtain ⟨n, hend, hle, hloop⟩ := ih (foldPass S) (foldPass_lt hS)
      rw [foldStar_foldPass] at hend hle
      refine ⟨n + 1, hend, hle, fun m hm => ?_⟩
      cases m with
      | zero   => exact hS
      | succ m => exact hloop m (Nat.lt_of_succ_lt_succ hm)
    · exact ⟨0, (foldStar_of_le (Nat.le_of_not_lt hS)).symm, foldStar_le S, fun m hm => absurd hm m.not_lt_zero⟩

theorem foldStar_eq_of_pos {S : Nat} (h : 0 < S) : foldStar S = (S - 1) % 65535 + 1 := if_neg h.ne'

theorem foldStar_mod (S : Nat) : foldStar S % 65535 = S % 65535 := by
  unfold foldStar
  split <;> omega

/-- fold*(S) is the only number in 1..65535 congruent to a positive `S` (R96). -/
theorem eq_foldStar_of_mod_eq {S v : Nat} (h : 0 < S) (hlo : 1 ≤ v) (hhi : v ≤ 65535) (hmod : v % 65535 = S % 65535) :
    v = foldStar S := by
  rw [foldStar_eq_of_pos h]
  omega

/-- Any number of passes before the rest is added loses nothing (R100). -/
theorem foldStar_foldPass_iterate_add (passes a b : Nat) : foldStar (foldPass^[passes] a + b) = foldStar (a + b) := by
  induction passes generalizing a with
  | zero => rfl
  | succ n ih => rw [Function.iterate_succ_apply, ih, foldStar_foldPass_add]

/-- A word 0xFFFF more does not change the folded sum of a positive sum (R101 d). -/
theorem foldStar_add_ones {S : Nat} (h : 0 < S) : foldStar (S + 65535) = foldStar S := by
  rw [foldStar_eq_of_pos h, foldStar_eq_of_pos (by omega)]
  omega

/-! The word sum (R96, R101). -/

/-- A last byte alone is the high byte of its word (R93). -/
theorem word_zero_toNat (b : Byte) : (word b 0).toNat = b.toNat * 256 :=
  (word_toNat b 0).trans (Nat.add_zero _)

/-- A word at an even offset adds its value, wherever it stands. -/
theorem wordSum_insert (u v : List Byte) (hi lo : Byte) (hu : u.length % 2 = 0) :
    wordSum (u ++ [hi, lo] ++ v) = wordSum (u ++ v) + (word hi lo).toNat := by
  rw [List.append_assoc, wordSum_append u _ hu, wordSum_append u v hu, List.cons_append, List.singleton_append, wordSum]
  omega

/-- The padding byte of an odd input, written out (R101 b). -/
theorem wordSum_append_zero (u : List Byte) (hu : u.length % 2 = 1) : wordSum (u ++ [0x00]) = wordSum u := by
  induction u using wordSum.induct with
  | case1 hi lo r ih =>
    have hr : r.length % 2 = 1 := by
      simp only [List.length_cons] at hu
      omega
    simp only [List.cons_append, wordSum, ih hr]
  | case2 b => rfl
  | case3 => contradiction

/-- Whole words may be permuted (R101 a). -/
theorem wordSum_pairs_perm {ws ws' : List (Byte × Byte)} (h : ws.Perm ws') :
    wordSum (ws.flatMap fun w => [w.1, w.2]) = wordSum (ws'.flatMap fun w => [w.1, w.2]) := by
  rw [wordSum_pairs, wordSum_pairs]
  exact (h.map _).sum_eq

theorem wordSum_replicate_ones (n : Nat) : wordSum (List.replicate (2 * n) 0xFF) = n * 65535 := by
  induction n with
  | zero => rfl
  | succ n ih =>
    rw [Nat.mul_succ, List.replicate_succ, List.replicate_succ, wordSum, ih, show (word 0xFF 0xFF).toNat = 65535 from rfl]
    omega

theorem wordSum_replicate_ones_odd (n : Nat) : wordSum (List.replicate (2 * n + 1) 0xFF) = n * 65535 + 0xFF00 := by
  rw [List.replicate_succ', wordSum_append _ _ (by simp), wordSum_replicate_ones]
  rfl

/-! The answer of CSUM as a function of the word sum. -/

theorem answers_csum_result (input : List Byte) {s : State} (hb : s.busy = false) (w : Word) :
    Answers (.csum input) s (.result w) ↔ checksumOf input = w := by
  rw [answers_csum input s hb, Response.result.injEq, eq_comm]

/-- Inputs whose sums fold to one value get one answer. -/
theorem answers_csum_congr {a b : List Byte} {s : State} (hb : s.busy = false)
    (h : foldStar (wordSum a) = foldStar (wordSum b)) (r : Response) :
    Answers (.csum a) s r ↔ Answers (.csum b) s r := by
  rw [answers_csum a s hb, answers_csum b s hb, checksumOf_congr h]

/-- A word 0xFFFF takes the checksum of an input that sums to 0 to 0x0000 (R101 d). -/
theorem checksumOf_insert_ones_of_zero {u v : List Byte} (hu : u.length % 2 = 0) (h0 : wordSum (u ++ v) = 0) :
    checksumOf (u ++ [0xFF, 0xFF] ++ v) = 0x0000 := by
  have hsum : wordSum (u ++ [0xFF, 0xFF] ++ v) = 65535 := by
    rw [wordSum_insert u v _ _ hu, h0]
    rfl
  rw [checksumOf_zero_iff, hsum]
  decide

/-- A checksum put into the word it was computed with as zero completes the sum to a positive multiple of 65535 (R105). -/
theorem checksumOf_insert_checksum {u v : List Byte} {c : Word} (hu : u.length % 2 = 0)
    (hc : checksumOf (u ++ [0x00, 0x00] ++ v) = c) : checksumOf (u ++ [hiByte c, loByte c] ++ v) = 0x0000 := by
  rw [checksumOf_eq_iff, wordSum_insert u v _ _ hu, show (word 0x00 0x00).toNat = 0 from rfl, Nat.add_zero] at hc
  rw [checksumOf_zero_iff, wordSum_insert u v _ _ hu, word_hiByte_loByte, ← hc]
  unfold foldStar
  split <;> omega

/-- The pair of bytes at an offset, cut out. -/
theorem exists_cut_at_pair {l : List Byte} {k : Nat} {a b : Byte} (ha : l[k]? = some a) (hb : l[k + 1]? = some b) :
    ∃ u v, u.length = k ∧ l = u ++ [a, b] ++ v := by
  obtain ⟨hk, rfl⟩ := List.getElem?_eq_some_iff.mp ha
  obtain ⟨hk', rfl⟩ := List.getElem?_eq_some_iff.mp hb
  refine ⟨l.take k, l.drop (k + 2), List.length_take_of_le hk.le, ?_⟩
  simp

theorem set_pair {u : List Byte} {k : Nat} (hu : u.length = k) (v : List Byte) (a b a' b' : Byte) :
    ((u ++ [a, b] ++ v).set k a').set (k + 1) b' = u ++ [a', b'] ++ v := by
  subst hu
  simp

/-- Self-consistency of any bytes with a zero word at offset 10 (R105). -/
theorem checksumOf_set_checksum {h : List Byte} {c : Word} (h10 : h[10]? = some 0) (h11 : h[11]? = some 0)
    (hc : checksumOf h = c) : checksumOf ((h.set 10 (hiByte c)).set 11 (loByte c)) = 0x0000 := by
  obtain ⟨u, v, hu, rfl⟩ := exists_cut_at_pair h10 h11
  rw [set_pair hu]
  exact checksumOf_insert_checksum (by rw [hu]) hc

/-- The header BUILD answers with is the one with the placeholder, its own checksum put there (R105). -/
theorem checksumOf_headerOf (f : Fields) : checksumOf (headerOf f) = 0x0000 :=
  checksumOf_set_checksum (h := headerWith f 0) rfl rfl rfl

/-! The rows of CK (R108). -/

section
variable {s : State}

theorem withAcc_written {k : Nat → Out} (h : s.written.acc = true) : withAcc s k = k s.acc := by simp [withAcc, h]

theorem withByte_some {input : List Byte} {i : Nat} {b : Byte} (k : Byte → Out) (h : input[i]? = some b) :
    withByte input i k = k b := by rw [withByte, h]

/-- A mark that stands already is not changed by another write of ACC. -/
theorem writeAcc_of_written (v : Nat) (h : s.written.acc = true) : writeAcc v s = { s with acc := v } := by
  rw [writeAcc, ← h]

theorem tick_csum_init (hb : s.busy = true) (ho : s.op = .csum) (hp : s.ckPhase = .init) : tick s = .next (ckInit s) := by
  simp only [tick, hb, if_true, ho, csumTick, hp, ckTick]

theorem tick_csum_done {r : Word} (hb : s.busy = true) (ho : s.op = .csum) (hp : s.ckPhase = .done) (hr : s.result = some r) :
    tick s = .next (deliver (.result r) s) := by
  simp only [tick, hb, if_true, ho, csumTick, hp, withResult, hr]

theorem ckAdd_pair {hi lo : Byte} (hin : s.written.input = true) (hacc : s.written.acc = true)
    (hhi : s.input[s.ckI]? = some hi) (hlo : s.input[s.ckI + 1]? = some lo) :
    ckAdd s = .next { s with acc := s.acc + (hi.toNat * 256 + lo.toNat), ckI := s.ckI + 2 } := by
  have hlt : s.ckI + 1 < s.input.length := (List.getElem?_eq_some_iff.mp hlo).1
  rw [ckAdd, withInput_written hin, if_pos hlt, withByte_some _ hhi, withByte_some _ hlo, withAcc_written hacc,
    writeAcc_of_written _ hacc, word_toNat]

theorem ckAdd_one_left (hin : s.written.input = true) (hi : s.ckI + 1 = s.input.length) :
    ckAdd s = .next { s with ckPhase := .tail } := by
  rw [ckAdd, withInput_written hin, if_neg hi.not_lt, if_pos hi]

theorem ckAdd_none_left (hin : s.written.input = true) (hi : s.ckI = s.input.length) :
    ckAdd s = .next { s with ckPhase := .fold } := by
  rw [ckAdd, withInput_written hin, if_neg (by omega), if_neg (by omega), if_pos hi]

theorem ckTail_last {b : Byte} (hin : s.written.input = true) (hacc : s.written.acc = true)
    (hlast : s.input.getLast? = some b) :
    ckTail s = .next { s with acc := s.acc + b.toNat * 256, ckI := s.input.length, ckPhase := .fold } := by
  rw [List.getLast?_eq_getElem?] at hlast
  rw [ckTail, withInput_written hin, withByte_some _ hlast, withAcc_written hacc, writeAcc_of_written _ hacc,
    word_zero_toNat]

theorem ckFold_pass (hacc : s.written.acc = true) (hgt : s.acc > 0xFFFF) :
    ckFold s = .next { s with acc := s.acc % 65536 + s.acc / 65536 } := by
  rw [ckFold, withAcc_written hacc, if_pos (show s.acc > accMask from hgt), writeAcc_of_written _ hacc, foldPass_eq]

theorem ckFold_result (hacc : s.written.acc = true) (hle : s.acc ≤ 0xFFFF) :
    ckFold s = .next { s with result := some (BitVec.ofNat 16 (0xFFFF - s.acc)), ckPhase := .done } := by
  rw [ckFold, withAcc_written hacc, if_neg (show ¬s.acc > accMask from Nat.not_lt.mpr hle), complement16_eq hle]

end

/-- A header that needs two passes: it sums to 0x1FFFF (R99; log 32). -/
def twoPassFields : Fields :=
  { version := 4, headerLengthWords := 5, typeOfService := 0, identification := 0xFFFF, flags := 5,
    fragmentOffset := 0x1AEC, timeToLive := 0, protocol := 0, source := ⟨0, 0, 0, 0⟩, destination := ⟨0, 0, 0, 0⟩,
    payload := [] }

theorem wordSum_twoPassFields : wordSum (headerWith twoPassFields 0) = 0x1FFFF := by decide

/-- The conclusion of VERIFY, compared with a literal (R104). -/
theorem exec_verify_verdict {input : List Byte} {s : State} {v : Verdict} (hb : s.busy = false)
    (h : verdictOf (checksumOf input) = v) : ∃ t, exec (.verify input) s = .next t ∧ t.verdict = some v := by
  obtain ⟨t, -, hv, -⟩ := exec_verify input s hb
  exact ⟨_, hv, congrArg some h⟩

end Sys2Proof.Machine

open Sys2Proof Sys2Proof.Machine

/-- Settles O12: the answer is `checksumOf`; the loop ends because a pass makes a value above 0xFFFF smaller, and every pass
keeps fold*. -/
theorem csumAnswersInternetChecksum : Obligations.CsumAnswersInternetChecksum := by
  refine ⟨fun input s hb => ?_, foldPass_iterate_reaches_foldStar, rfl, fun S hS => ?_⟩
  · rw [exactWordSum_eq]
    exact (answers_csum_result input hb _).mpr rfl
  · exact ⟨foldStar_eq_of_pos hS, foldStar_mod S, fun v => eq_foldStar_of_mod_eq hS⟩

/-- Settles O13: no micro-step of a CSUM touches HB's registers or the host's side, and CK ends in DONE. -/
theorem csumFrame : Obligations.CsumFrame := by
  intro input s t hb ht
  obtain ⟨u, hu, hinv, hidle, -, ⟨hop, hpend, hverdict, hseq, hchan, hops, hkeep⟩, hfin, -⟩ := perform_idle (.csum input) s hb
  cases hu.symm.trans ht
  obtain ⟨hin, hstep, hbuf, htl, hck⟩ := hkeep rfl
  obtain ⟨hphase, hi, hacc⟩ := hfin hop
  rw [accept_csum_input] at hin
  rw [hin] at hi hacc
  have hnone : NothingPending t := by simpa [MachineInv, hidle] using hinv
  obtain ⟨hst, hout, hres⟩ := hnone
  exact ⟨hidle, hop, hin, hphase, hi, by rw [hacc, exactWordSum_eq], hstep, hst, hout, hres, hops, hbuf, htl, hck, hpend,
    hverdict, hseq, hchan⟩

/-- Settles O15: by R94's pass as a remainder and a quotient by 65536. -/
theorem foldEndsAndHowSoon : Obligations.FoldEndsAndHowSoon := by
  refine ⟨fun acc => foldPass_lt, fun acc hacc => ?_, rfl, rfl, fun s hb => (answers_csum_result _ hb _).mpr (by decide)⟩
  rw [foldPass_eq (foldPass acc), foldPass_eq acc]
  omega

/-- Settles O17: each law is one of the word sum, and the answer depends on its folded value alone. -/
theorem checksumLaws : Obligations.ChecksumLaws := by
  have hvec {s : State} (hb : s.busy = false) {input : List Byte} {w : Word} := (answers_csum_result input hb w).mpr
  intro s hb
  refine ⟨fun ws ws' r hperm => answers_csum_congr hb (congrArg foldStar (wordSum_pairs_perm hperm)) r,
    ⟨hvec hb (by decide), hvec hb (by decide), hvec hb (by decide), hvec hb (by decide)⟩,
    fun u v r hu => answers_csum_congr hb (congrArg foldStar (wordSum_insert u v 0x00 0x00 hu)) r,
    fun u r hu => answers_csum_congr hb (congrArg foldStar (wordSum_append_zero u hu)) r,
    fun u v hu => ?_, fun u v r hu hpos => answers_csum_congr hb ?_ r, fun u v hu h0 => ?_⟩
  · simpa only [exactWordSum_eq] using wordSum_append u v hu
  · rw [exactWordSum_eq] at hpos
    rw [wordSum_insert u v _ _ hu]
    exact foldStar_add_ones hpos
  · rw [exactWordSum_eq] at h0
    exact ⟨hvec hb ((checksumOf_ones_iff _).mpr h0), hvec hb (checksumOf_insert_ones_of_zero hu h0)⟩

/-- Settles O18: the two extreme values of 0xFFFF − fold*(S); word 0 of an accepted header keeps BUILD away from S = 0. -/
theorem extremeResults : Obligations.ExtremeResults := by
  intro s hb
  simp only [answers_csum_result _ hb, exactWordSum_eq]
  refine ⟨checksumOf_ones_iff, wordSum_zero_iff, checksumOf_zero_iff, by decide, fun S hS => (foldStar_pos hS).ne',
    fun f hf => ⟨_, rfl, wordSum_headerWith_ge hf 0⟩, fun f bytes ha => ?_⟩
  obtain ⟨-, rfl⟩ := answers_build_ok hb ha
  rw [headerOf, getChecksum_headerWith]
  exact checksumOf_headerWith_ne_ones f 0

/-- Settles O19: the checksum completes the word sum to a multiple of 65535. -/
theorem checksumSelfConsistency : Obligations.ChecksumSelfConsistency := by
  intro s hb
  simp only [answers_csum_result _ hb]
  refine ⟨fun h c _ _ h10 h11 => checksumOf_set_checksum h10 h11, fun f bytes ha => ?_⟩
  obtain ⟨-, rfl⟩ := answers_build_ok hb ha
  rw [take_packet]
  exact checksumOf_headerOf f

/-- Settles O20: a pass before the rest is added keeps fold* of the total; a run of 0xFF sums to a multiple of 65535, and to
0xFF00 more with one byte over. -/
theorem longInputsKeepEveryCarry : Obligations.LongInputsKeepEveryCarry := by
  refine ⟨fun u v passes s hu hb => ?_, fun n s hn hb => ?_, fun n s hb => ?_⟩
  · rw [answers_csum_result _ hb, exactWordSum_eq, exactWordSum_eq, foldStar_foldPass_iterate_add, ← wordSum_append u v hu,
      checksumOf]
  · rw [answers_csum_result _ hb, checksumOf_zero_iff, wordSum_replicate_ones]
    exact ⟨by omega, Nat.dvd_mul_left _ n⟩
  · have hfold : foldStar (n * 65535 + 0xFF00) = 0xFF00 := (eq_foldStar_of_mod_eq (by omega) (by omega) (by omega) (by omega)).symm
    rw [answers_csum_result _ hb, checksumOf, wordSum_replicate_ones_odd, hfold]
    rfl

/-- Settles O22: VERIFY is CSUM and the comparison of its answer with 0x0000. -/
theorem verifyConcludes : Obligations.VerifyConcludes := by
  refine fun input s hb => ⟨?_, exec_verify_verdict hb (by decide), exec_verify_verdict hb (by decide)⟩
  obtain ⟨t, ht, hv, hdel⟩ := exec_verify input s hb
  refine ⟨_, checksumOf input, hv, ⟨t, ht, hdel⟩, hdel, rfl, ?_⟩
  rw [exactWordSum_eq]
  exact checksumOf_zero_iff input

/-- Settles O23: the conclusion writes the verdict alone, and CSUM has its frame. -/
theorem verifyFrame : Obligations.VerifyFrame := by
  intro input s t hb ht
  obtain ⟨u, hu, hv, -⟩ := exec_verify input s hb
  cases hv.symm.trans ht
  obtain ⟨hidle, -, -, -, -, -, -, -, -, -, hops, hbuf, htl, hck, hpend, -, hseq, hchan⟩ := csumFrame input s u hb hu
  exact ⟨u, hu, rfl, hops, hbuf, htl, hck, hpend, hseq, hchan, hidle⟩

/-- Settles O14: between INIT and DONE a micro-step is the row of CK, in both operations. -/
theorem ckStepTable : Obligations.CkStepTable := by
  refine fun s => ⟨tick_csum_init, fun hc hin => ⟨fun hp hi => ?_, fun hp hi => ?_⟩,
    fun hc hin hacc => ⟨fun hp hi lo hhi hlo => ?_, fun hp b hb => ?_⟩, fun hc hacc => ⟨fun hp hgt => ?_, fun hp hle => ?_⟩,
    fun hb ho hp r hr => tick_csum_done hb ho hp hr⟩
  · rw [tick_add hc hp, ckAdd_one_left hin hi]
  · rw [tick_add hc hp, ckAdd_none_left hin hi]
  · rw [tick_add hc hp, ckAdd_pair hin hacc hhi hlo]
  · rw [tick_tail hc hp, ckTail_last hin hacc hb]
  · rw [tick_fold hc hp, ckFold_pass hacc hgt]
  · rw [tick_fold hc hp, ckFold_result hacc hle]

/-- Settles O16: `twoPassFields` sums to 0x1FFFF, which one pass takes to 0x10000 only. -/
theorem headerFoldMayNeedTwoPasses : Obligations.HeaderFoldMayNeedTwoPasses := by
  have hv : fieldsValid twoPassFields = true := by decide
  have hsum := (exactWordSum_eq _).trans wordSum_twoPassFields
  refine ⟨twoPassFields, (fieldsValid_iff _).mp hv, hsum, by rw [hsum]; decide, fun s hb =>
    ⟨_, (answers_build _ s hb _).mpr (answerTo_build_of_valid hv).symm, ?_⟩⟩
  rw [headerOf, getChecksum_headerWith, checksumOf, wordSum_twoPassFields]
  rfl

/-- Settles O21: no byte sums to 0, one byte b to b · 256. -/
theorem csumEdgeCasesAndKnownVector : Obligations.CsumEdgeCasesAndKnownVector := by
  intro s hb
  simp only [answers_csum_result _ hb]
  refine ⟨by decide, fun b => ?_, by decide, (checksumOf_eq_iff _ _).mpr (by decide)⟩
  have hsum : wordSum [b] = b.toNat * 256 := word_zero_toNat b
  rw [checksumOf, hsum, foldStar_of_le (by omega)]

end

section
/-! PROOFS. GENSEQ and the channel (spec/42_generation_sequence.md): what the host sees after a sequence as a function of what it
saw before, the twelve packets, and the reads. -/

namespace Sys2Proof.Machine

variable {s t : State}

/-! What the host sees after GENSEQ (R110, R113, R114, R117). -/

/-- The first of the next twelve writes that fails, counted from 0. -/
def firstFailedWrite (c : Channel) : Option Nat :=
  (List.range Config.genCount).find? fun j => c.failWrites.contains (c.writes + j)

theorem firstFailedWrite_eq_none {c : Channel} (h : ∀ j, j < 12 → c.writes + j ∉ c.failWrites) :
    firstFailedWrite c = none := by
  simpa [firstFailedWrite, Config.genCount] using h

theorem firstFailedWrite_eq_some {c : Channel} {j : Nat} (hj : j < 12) (hf : c.writes + j ∈ c.failWrites)
    (hw : ∀ i, i < j → c.writes + i ∉ c.failWrites) : firstFailedWrite c = some j := by
  rw [firstFailedWrite, List.find?_range_eq_some]
  simpa [Config.genCount, hj, hf] using hw

/-- The host's view after `answered` packets, of which the first `written` went to the channel. -/
def sequenceView (dst : Ipv4Addr) (written answered : Nat) (e : SeqEnd) (v : HostView) : HostView :=
  { v with
    delivered := ((List.range answered).map fun k => Response.ok (genPacket dst k)).reverse ++ v.delivered
    seqEnd := some e
    channel := { v.channel with
      writes := v.channel.writes + answered
      sent := v.channel.sent ++ (List.range written).map (genPacket dst) } }

/-- The host's view after GENSEQ. -/
def genseqView (v : HostView) : HostView :=
  match v.channel.peer, firstFailedWrite v.channel with
  | none, _          => { v with seqEnd := some .channelFailure }
  | some dst, none   => sequenceView dst 12 12 .completed v
  | some dst, some j => sequenceView dst j (j + 1) .channelFailure v

theorem genseqView_completed {v : HostView} {dst : Ipv4Addr} (hp : v.channel.peer = some dst)
    (hw : ∀ j, j < 12 → v.channel.writes + j ∉ v.channel.failWrites) :
    genseqView v = sequenceView dst 12 12 .completed v := by
  simp only [genseqView, hp, firstFailedWrite_eq_none hw]

theorem genseqView_stopped {v : HostView} {dst : Ipv4Addr} {j : Nat} (hp : v.channel.peer = some dst) (hj : j < 12)
    (hf : v.channel.writes + j ∈ v.channel.failWrites) (hw : ∀ i, i < j → v.channel.writes + i ∉ v.channel.failWrites) :
    genseqView v = sequenceView dst j (j + 1) .channelFailure v := by
  simp only [genseqView, hp, firstFailedWrite_eq_some hj hf hw]

theorem hostView_eq_sequenceView {dst : Ipv4Addr} {written answered : Nat} {e : SeqEnd} (hb : t.busy = s.busy)
    (he : t.seqEnd = some e) (hsent : t.channel.sent = s.channel.sent ++ genPackets dst 0 written)
    (hwrites : t.channel.writes = s.channel.writes + answered)
    (hdel : t.delivered = ((genPackets dst 0 answered).map Response.ok).reverse ++ s.delivered) (hframe : SeqFrame s t) :
    hostView t = sequenceView dst written answered e (hostView s) := by
  obtain ⟨hpend, hverdict, hpeer, hfail, hreads, hfailReads, hrec⟩ := hframe
  have hchan : t.channel = { s.channel with
      writes := s.channel.writes + answered
      sent := s.channel.sent ++ (List.range written).map (genPacket dst) } := by
    show Channel.mk t.channel.peer _ _ _ _ _ _ = _
    rw [hpeer, hwrites, hfail, hsent, hreads, hfailReads, hrec, genPackets, ← List.range_eq_range']
  rw [hostView, hb, hpend, hdel, hverdict, he, hchan, genPackets, List.map_map, ← List.range_eq_range']
  rfl

/-- GENSEQ without a peer, and its loop in the two ways it can end. -/
theorem exec_genseq_hostView_of_inv (hi : MachineInv s) (hb : s.busy = false) :
    ∃ t, exec .genseq s = .next t ∧ hostView t = genseqView (hostView s) := by
  cases hp : s.channel.peer with
  | none =>
    exact ⟨endSequence .channelFailure s, by simp [exec, execGenseq, hb, hp], by simp [genseqView, hostView, hp]⟩
  | some dst =>
    rw [exec_genseq dst s hb hp]
    obtain hw | ⟨j, hj, hf, hw⟩ := first_failing_write s.channel 12
    · obtain ⟨t, ht, -, hbt, he, hsent, hwrites, hdel, hframe⟩ := genLoop_completes dst 12 0 s (by decide) hi hb hw
      exact ⟨t, ht, (hostView_eq_sequenceView (hbt.trans hb.symm) he hsent hwrites hdel hframe).trans
        (genseqView_completed (v := hostView s) hp hw).symm⟩
    · obtain ⟨t, ht, -, hbt, he, hsent, hwrites, hdel, hframe⟩ := genLoop_stops dst 12 0 j s (by decide) hi hb hj hf hw
      exact ⟨t, ht, (hostView_eq_sequenceView (hbt.trans hb.symm) he hsent hwrites hdel hframe).trans
        (genseqView_stopped (v := hostView s) hp hj hf hw).symm⟩

theorem inv_nothingPending (hb : s.busy = false) :
    MachineInv { s with status := none, out := none, result := none } := by
  simp [MachineInv, hb, NothingPending]

/-- The same from any idle state: one with nothing pending looks alike to the host. -/
theorem exec_genseq_hostView (hb : s.busy = false) : ∃ t, exec .genseq s = .next t ∧ hostView t = genseqView (hostView s) := by
  obtain ⟨u, hu, hvu⟩ := exec_genseq_hostView_of_inv (inv_nothingPending hb) hb
  obtain ⟨t, t', ht, ht', hvt⟩ :=
    exec_hostView_congr .genseq (s' := { s with status := none, out := none, result := none }) hb rfl
  cases hu.symm.trans ht'
  exact ⟨t, ht, hvt.trans hvu⟩

/-- Whatever fails, GENSEQ adds packets, responses and writes, sets the sequence's end, and changes nothing else. -/
theorem genseqView_eq (v : HostView) : ∃ packets responses writes e, genseqView v =
    { v with delivered := responses ++ v.delivered, seqEnd := some e,
             channel := { v.channel with writes := writes, sent := v.channel.sent ++ packets } } := by
  unfold genseqView
  split
  · exact ⟨[], [], v.channel.writes, .channelFailure, by simp⟩
  · exact ⟨_, _, _, _, rfl⟩
  · exact ⟨_, _, _, _, rfl⟩

/-! The packets (R111, R112). -/

theorem genFields_payloadLength (dst : Ipv4Addr) (k : Nat) : (genFields dst k).payloadLength = 2 + k * 2 :=
  genPayload_length k

theorem genPacket_eq (dst : Ipv4Addr) {k : Nat} (hk : k < 12) :
    genPacket dst k = headerOf (genFields dst k) ++ genPayload k :=
  Response.ok.inj ((answerTo_genFields dst k hk).symm.trans (answerTo_build_of_valid (genFields_valid dst k hk)))

theorem getTotalLength_genPacket (dst : Ipv4Addr) {k : Nat} (hk : k < 12) :
    (getTotalLength (genPacket dst k)).toNat = 22 + 2 * k := by
  rw [genPacket_eq dst hk, headerOf, getTotalLength_headerWith (genFields_valid dst k hk), genFields_payloadLength]
  omega

/-- The defaults, the length and the two halves of the destination are what the header sums to. -/
theorem wordSum_header_genFields (dst : Ipv4Addr) {k : Nat} (hk : k < 12) :
    wordSum (headerWith (genFields dst k) 0) =
      0xF61D + 2 * k + (dst.o0.toNat * 256 + dst.o1.toNat) + (dst.o2.toNat * 256 + dst.o3.toNat) := by
  have hlen : (BitVec.ofNat 16 (20 + (genPayload k).length) : Word).toNat = 22 + 2 * k := by
    rw [genPayload_length, BitVec.toNat_ofNat]
    omega
  rw [genFields, headerWith_defaults]
  simp only [wordSum, word_hiByte_loByte, hlen, word_toNat, BitVec.reduceToNat]
  omega

theorem getChecksum_genPacket (dst : Ipv4Addr) {k : Nat} (hk : k < 12) :
    (getChecksum (genPacket dst k)).toNat = 65535 - foldStar
      (0xF61D + 2 * k + (dst.o0.toNat * 256 + dst.o1.toNat) + (dst.o2.toNat * 256 + dst.o3.toNat)) := by
  rw [genPacket_eq dst hk, headerOf, getChecksum_headerWith, checksumOf_toNat, wordSum_header_genFields dst hk]

theorem flatten_genPackets_length (dst : Ipv4Addr) : ((List.range 12).map (genPacket dst)).flatten.length = 396 := by
  simp only [List.length_flatten, List.map_map, Function.comp_def, genPacket_length]
  rfl

/-! The reads (R115). -/

theorem channelRead_eq (c : Channel) : ∃ received, (channelRead c).1 = { c with received := received, reads := c.reads + 1 } := by
  unfold channelRead
  split
  · exact ⟨_, rfl⟩
  · exact ⟨_, rfl⟩

/-- The channel with another history of reads, and other reads that fail. -/
def Channel.withReads (received : List (List Byte)) (reads : Nat) (failReads : List Nat) (c : Channel) : Channel :=
  { c with received := received, reads := reads, failReads := failReads }

/-- The state with another history of reads. -/
def State.withReads (received : List (List Byte)) (reads : Nat) (failReads : List Nat) (s : State) : State :=
  { s with channel := s.channel.withReads received reads failReads }

/-- The host's view with another history of reads. -/
def HostView.withReads (received : List (List Byte)) (reads : Nat) (failReads : List Nat) (v : HostView) : HostView :=
  { v with channel := v.channel.withReads received reads failReads }

variable (received : List (List Byte)) (reads : Nat) (failReads : List Nat)

theorem genseqView_withReads (v : HostView) :
    genseqView (v.withReads received reads failReads) = (genseqView v).withReads received reads failReads := by
  have hpeer : (v.withReads received reads failReads).channel.peer = v.channel.peer := rfl
  have hfail : firstFailedWrite (v.withReads received reads failReads).channel = firstFailedWrite v.channel := rfl
  rw [genseqView, genseqView, hpeer, hfail]
  split
  · rfl
  · rfl
  · rfl

theorem perform_withReads (r : Request) (hb : s.busy = false) :
    ∃ t t', perform r s = .next t ∧ perform r (s.withReads received reads failReads) = .next t' ∧
      hostView t' = (hostView t).withReads received reads failReads := by
  obtain ⟨t, ht, hv⟩ := perform_hostView r s hb
  obtain ⟨t', ht', hv'⟩ := perform_hostView r (s.withReads received reads failReads) hb
  exact ⟨t, t', ht, ht', by rw [hv, hv']; rfl⟩

/-- With another history of reads every instruction does the same, and keeps that history. -/
theorem exec_withReads (i : Instr) (hb : s.busy = false) :
    ∃ t t', exec i s = .next t ∧ exec i (s.withReads received reads failReads) = .next t' ∧
      hostView t' = (hostView t).withReads received reads failReads := by
  cases i with
  | csum input                     => exact perform_withReads received reads failReads (.csum input) hb
  | build f                        => exact perform_withReads received reads failReads (.build f) hb
  | buildDef o destination payload =>
    exact perform_withReads received reads failReads (.build (applyDefaults o destination payload)) hb
  | verify input                   =>
    obtain ⟨u, u', hu, hu', hv⟩ := perform_withReads received reads failReads (.csum input) hb
    obtain ⟨t, ht, hvt, -⟩ := exec_verify input s hb
    obtain ⟨t', ht', hvt', -⟩ := exec_verify input (s.withReads received reads failReads) hb
    cases hu.symm.trans ht
    cases hu'.symm.trans ht'
    exact ⟨_, _, hvt, hvt', congrArg (fun v => { v with verdict := some (verdictOf (checksumOf input)) }) hv⟩
  | genseq                         =>
    obtain ⟨t, ht, hv⟩ := exec_genseq_hostView hb
    obtain ⟨t', ht', hv'⟩ := exec_genseq_hostView (s := s.withReads received reads failReads) hb
    exact ⟨t, t', ht, ht', hv'.trans (hv ▸ genseqView_withReads received reads failReads (hostView s))⟩

/-- No instruction reads: the case of `exec_withReads` in which the history put in is the state's own. -/
theorem exec_received (i : Instr) (hb : s.busy = false) (h : exec i s = .next t) : t.channel.received = s.channel.received := by
  obtain ⟨u, u', hu, hu', hv⟩ := exec_withReads s.channel.received s.channel.reads s.channel.failReads i hb
  cases h.symm.trans hu
  cases h.symm.trans hu'
  exact congrArg (fun v => v.channel.received) hv

end Sys2Proof.Machine

open Sys2Proof Sys2Proof.Machine

/-- Settles O46: the host's view after a sequence in which no write fails. -/
theorem genseqWritesTwelvePackets : Obligations.GenseqWritesTwelvePackets := by
  intro dst s hb hp hw
  obtain ⟨t, ht, hv⟩ := exec_genseq_hostView hb
  rw [genseqView_completed hp hw] at hv
  obtain ⟨hbt, -, hdel, -, he, hchan⟩ := HostView.mk.inj hv
  exact ⟨t, ht, he, congrArg Channel.sent hchan, congrArg Channel.writes hchan, hdel, hbt.trans hb⟩

/-- Settles O47: the twelve packets stand after the earlier ones; their headers differ in the length alone, which the word sum
and so the complement of its fold follow. -/
theorem genseqLengthsAndChecksums : Obligations.GenseqLengthsAndChecksums := by
  intro dst s t hb hp hw ht
  obtain ⟨u, hu, -, hsent, -⟩ := genseqWritesTwelvePackets dst s hb hp hw
  cases hu.symm.trans ht
  refine ⟨?_, fun k hk => ⟨genPacket dst k, ?_, genPacket_length dst k, getTotalLength_genPacket dst hk, ?_, ?_⟩⟩
  · rw [Channel.stream, hsent, List.flatten_append, List.length_append, flatten_genPackets_length, Channel.stream]
  · simp [hsent, hk]
  all_goals
    rintro rfl
    rw [getChecksum_genPacket _ hk, foldStar_eq_of_pos (by omega)]
    simp only [BitVec.reduceToNat]
    omega

/-- Settles O48: the host's view after a sequence that write number `j` ends. -/
theorem genseqStopsAtFailedWrite : Obligations.GenseqStopsAtFailedWrite := by
  intro dst j s hb hp hj hf hw
  obtain ⟨t, ht, hv⟩ := exec_genseq_hostView hb
  rw [genseqView_stopped hp hj hf hw] at hv
  obtain ⟨hbt, -, hdel, -, he, hchan⟩ := HostView.mk.inj hv
  exact ⟨t, ht, he, congrArg Channel.sent hchan, congrArg Channel.writes hchan, hdel, hbt.trans hb⟩

/-- Settles O50: the invariant leaves an idle block with nothing pending, and the host's view changes where GENSEQ adds. -/
theorem genseqFrame : Obligations.GenseqFrame := by
  intro s t hi hb ht
  obtain ⟨u, hu, hidle, hinv⟩ := exec_completes .genseq hi
  cases hu.symm.trans ht
  have hnone : NothingPending t := by simpa [MachineInv, hidle] using hinv
  obtain ⟨hst, hout, hres⟩ := hnone
  obtain ⟨v, hv, hview⟩ := exec_genseq_hostView hb
  cases hv.symm.trans ht
  obtain ⟨packets, responses, writes, e, hadds⟩ := genseqView_eq (hostView s)
  obtain ⟨-, hpend, hdel, hverdict, -, hchan⟩ := HostView.mk.inj (hview.trans hadds)
  rw [hchan]
  exact ⟨hidle, hst, hout, hres, hpend, hverdict, rfl, rfl, rfl, rfl, rfl, ⟨packets, rfl⟩, ⟨responses, hdel⟩⟩

/-- Settles O51: what an instruction does to the host's view commutes with a change of the history of reads. -/
theorem readsChangeNoLaterRequest : Obligations.ReadsChangeNoLaterRequest := by
  refine ⟨fun s => ?_, ?_⟩
  · obtain ⟨received, hread⟩ := channelRead_eq s.channel
    exact ⟨received, by rw [hostRead, hread]⟩
  · rintro i s s' received reads failReads hb rfl
    obtain ⟨t, t', ht, ht', hv⟩ := exec_withReads received reads failReads i hb
    obtain ⟨-, -, hdel, hverdict, he, hchan⟩ := HostView.mk.inj hv
    refine ⟨t, t', ht, ht', hdel, ?_⟩
    rw [hchan]
    exact ⟨rfl, rfl, he, hverdict, rfl, exec_received i hb ht⟩

end

section
/-! PROOFS. Exceptions (spec/60_exceptions.md): a step with no request or with a record that is none, the one exception of the
block, InvalidField, and the failure of the channel to give a peer. -/

namespace Sys2Proof.Machine

variable {s : State}

/-! A step that starts no instruction (R125, R133). -/

theorem step_of_no_request (hp : s.pending = []) : step s = finish s := by
  simp [step, fetch, hp]

theorem step_of_malformed {record : List Byte} {rest : List (List Byte)} {e : DecodeError} (hp : s.pending = record :: rest)
    (hd : decode record = .error e) : step s = .refused (.malformedRecord e) := by
  simp [step, fetch, hp, hd]

/-! InvalidField (R128). -/

theorem perform_eq_finish_accept (r : Request) (hb : s.busy = false) : perform r s = finish (accept r s) := by
  rw [perform, finish_idle s hb, andThen_next]

theorem hbValidate_of_rejected {f : Fields} (hf : ¬Accepts f) (s : State) : hbValidate f s = raiseInvalidField s :=
  if_neg (mt (fieldsValid_iff f).mp hf)

/-- The first micro-step of a rejected BUILD raises InvalidField. -/
theorem tick_accept_rejected {f : Fields} (hf : ¬Accepts f) (s : State) :
    tick (accept (.build f) s) = .next (raiseInvalidField (accept (.build f) s)) := by
  rw [tick_hb_operands (s := accept (.build f) s) (g := hbValidate) rfl rfl rfl rfl rfl, accept_build_operands,
    hbValidate_of_rejected hf]

/-- A BUILD in progress with InvalidField raised is one micro-step from its end. -/
theorem tick_raiseInvalidField (hb : s.busy = true) (ho : s.op = .build) :
    tick (raiseInvalidField s) = .next (deliver .invalidField (raiseInvalidField s)) :=
  tick_build hb ho

/-- Two micro-steps that end an operation finish it: the bound on micro-steps is above two in every state. -/
theorem finish_of_two_ticks {t u : State} (hs : s.busy = true) (hst : tick s = .next t) (ht : t.busy = true)
    (htu : tick t = .next u) (hu : u.busy = false) : finish s = .next u := by
  rw [finish, tickBound, run_succ_of_tick _ hs hst, run_succ_of_tick _ ht htu, run_idle _ u hu]

/-- A rejected BUILD from acceptance to the end: nothing happens between acceptance, the error and its delivery. -/
theorem exec_build_rejected {f : Fields} (hf : ¬Accepts f) (hb : s.busy = false) :
    exec (.build f) s = .next (deliver .invalidField (raiseInvalidField (accept (.build f) s))) :=
  (perform_eq_finish_accept (.build f) hb).trans <|
    finish_of_two_ticks rfl (tick_accept_rejected hf s) rfl (tick_raiseInvalidField rfl rfl) rfl

/-! ChannelFailure of `peerAddress()` (R123; 42_generation_sequence.md R113). -/

theorem exec_genseq_of_no_peer (hb : s.busy = false) (hp : s.channel.peer = none) :
    exec .genseq s = .next (endSequence .channelFailure s) := by
  simp only [exec, execGenseq, finish_idle s hb, andThen_next, hp]

end Sys2Proof.Machine

open Sys2Proof Sys2Proof.Machine

/-- Settles O10: the operation in progress is finished first, and every instruction completes on the idle block this leaves. -/
theorem everyInstructionCompletes : Obligations.EveryInstructionCompletes :=
  fun i _ h => exec_completes i h

/-- Settles O6: with no record waiting the step finishes what is in progress, with one that does not decode it stops. -/
theorem stepWithoutRequest : Obligations.StepWithoutRequest := by
  refine ⟨fun s hp hb => ?_, fun s hi hb hp => ?_, fun s record rest e => step_of_malformed⟩
  · exact (step_of_no_request hp).trans (finish_idle s hb)
  · obtain ⟨u, hu, -, ⟨-, hpend, hverdict, hseq, hchan, -⟩, hidle, hdel, -⟩ := finish_busy s hi hb
    exact ⟨u, (step_of_no_request hp).trans hu, hidle, hdel, hpend.trans hp, hchan, hverdict, hseq⟩

/-- Settles O26: the last state is acceptance, the error and its delivery, and each register is read off it. -/
theorem invalidFieldEntry : Obligations.InvalidFieldEntry := by
  intro f s hb hf
  exact ⟨_, exec_build_rejected hf hb, rfl, rfl, rfl, rfl, rfl, rfl, rfl, rfl, rfl, rfl, rfl, rfl, rfl, rfl, rfl, rfl, rfl, rfl⟩

/-- Settles O49: without a peer the loop of GENSEQ is not entered. -/
theorem genseqWithoutPeer : Obligations.GenseqWithoutPeer :=
  fun _ => exec_genseq_of_no_peer

end

section
/-! PROOFS. Reset and hazards (spec/70_reset_and_hazards.md): what the host sees of an operation in progress and of a reset, the
block after reset, and the header at the start of step 12. -/

namespace Sys2Proof.Machine

variable {s m : State}

/-! The host's view of an operation that is discarded (R140, R141). -/

/-- Of an acceptance the host sees that the block is busy. -/
theorem hostView_accept (r : Request) (s : State) : hostView (accept r s) = { hostView s with busy := true } := by
  cases r with
  | csum input => rfl
  | build f    => rfl

/-- Of a reset the host sees that the block is idle (log 15). -/
theorem hostView_applyReset (s : State) : hostView (applyReset s) = { hostView s with busy := false } := rfl

/-- A micro-step that leaves the block busy shows the host nothing. -/
theorem tick_hostView_of_busy (hi : MachineInv s) (hb : s.busy = true) (ht : tick s = .next m) (hm : m.busy = true) :
    hostView m = hostView s := by
  obtain ⟨t, ht', -, ⟨-, hpend, hverdict, hseq, hchan, -⟩, hend⟩ := tick_spec s hi hb
  cases ht.symm.trans ht'
  obtain ⟨-, hdel, -⟩ | ⟨hidle, -⟩ := hend
  · simp only [hostView, hm, hb, hpend, hdel, hverdict, hseq, hchan]
  · simp [hm] at hidle

/-- Nor does any number of them: an operation that has not ended shows the host nothing. -/
theorem run_hostView_of_busy (n : Nat) (hi : MachineInv s) (hr : run n s = .next m) (hm : m.busy = true) :
    hostView m = hostView s := by
  induction n generalizing s with
  | zero =>
    cases hr
    rfl
  | succ n ih =>
    cases hb : s.busy with
    | false =>
      cases (run_idle (n + 1) s hb).symm.trans hr
      rfl
    | true =>
      obtain ⟨u, hu, hinv, -⟩ := tick_spec s hi hb
      have hv : hostView m = hostView u := ih hinv ((run_succ_of_tick n hb hu).symm.trans hr)
      exact hv.trans (tick_hostView_of_busy hi hb hu ((congrArg HostView.busy hv).symm.trans hm))

/-- To the host, a reset during an operation takes an idle block back to where it was before the request. -/
theorem hostView_applyReset_of_run {r : Request} {n : Nat} (hb : s.busy = false) (hr : run n (accept r s) = .next m)
    (hm : m.busy = true) : hostView (applyReset m) = hostView s := by
  rw [hostView_applyReset, run_hostView_of_busy n (accept_inv r s) hr hm, hostView_accept]
  simp only [hostView, hb]

/-! The header that step 12 finds (R145, R146). -/

/-- Every byte of HBUF is marked as written when step 12 starts. -/
theorem hbuf_mark_at_checksum (hi : HbInv s) (hp : s.hbStep = .checksum) (k : Nat) (hk : k < 20) :
    s.written.hbuf[k] = true := by
  obtain ⟨hall, -⟩ := hbuf_at_checksum hi hp
  exact List.all_eq_true.mp hall s.written.hbuf[k] (by simp)

end Sys2Proof.Machine

open Sys2Proof Sys2Proof.Machine

/-- Settles O36: CK starts over HBUF, which holds the header with the placeholder, all of it written. -/
theorem checksumTakenOverFinishedHeader : Obligations.ChecksumTakenOverFinishedHeader := by
  intro s h hb ho hst hp hc
  have hi := hbInv_of_machineInv h hb ho hst
  obtain ⟨-, hh⟩ := hbuf_at_checksum hi hp
  have hin : (ckInit (writeInput s.hbuf.toList s)).input = headerWith s.operands 0 := hh
  refine ⟨_, tick_checksum_init hi hb ho hst hp hc, rfl, hin, ?_, ?_, ?_, hbuf_mark_at_checksum hi hp, rfl⟩
  all_goals
    rw [hin]
    rfl

/-- Settles O45: to the host the reset gives back the state before the request, and an instruction does the same from two
states that are alike to the host. -/
theorem resetDiscardsOperation : Obligations.ResetDiscardsOperation := by
  intro r s m n hb hr hm
  have hv : hostView (applyReset m) = hostView s := hostView_applyReset_of_run hb hr hm
  obtain ⟨t, u, ht, hu, htu⟩ := exec_hostView_congr (instrOf r) (s := applyReset m) rfl hv
  exact ⟨congrArg HostView.delivered hv, rfl, rfl, rfl, rfl, congrArg HostView.channel hv, t, u, ht, hu,
    congrArg HostView.delivered htu⟩

/-- Settles O8: the block is idle after reset, and none of the three parts of a response is there. -/
theorem resetMeetsInvariant : Obligations.ResetMeetsInvariant :=
  show NothingPending State.reset from ⟨rfl, rfl, rfl⟩

/-- Settles O44: the request presented is the whole queue of an idle block, and one step serves it. -/
theorem resetAcceptsFirstRequest : Obligations.ResetAcceptsFirstRequest := by
  refine ⟨rfl, rfl, rfl, rfl, fun r hw => ?_⟩
  obtain ⟨t, ht, hv⟩ := step_request (s := present (encode (instrOf r)) State.reset) (rest := []) hw rfl rfl
  exact ⟨t, ht, congrArg HostView.delivered hv, congrArg HostView.busy hv⟩

end
